-- ==== Sys2Proof/Word.lean ====
section
/-!
DEFINITION. The widths of APA-T5 CORE: a byte is 8 bits, the header fields and the registers that mirror
them are 16 or 32 bits (spec/00_scope.md R7, spec/10_state.md R45), STATUS is 5 bits (R39).
-/

namespace Sys2Proof

/-- The unit of addressing of every buffer (20_memory.md R60) and the width of a command word (30_encoding.md R90). -/
abbrev Byte := BitVec 8

/-- A 16-bit register: HA.CH, HA.BPS, HB.CH, HB.BPS, OCH, OBPS (10_state.md R45). -/
abbrev Half := BitVec 16

/-- A 32-bit register: the lengths, the rates and the data sizes (10_state.md R45). -/
abbrev Word := BitVec 32

end Sys2Proof
end

