-- ==== Sys2Proof/Syntax.lean ====
section
/-!
DEFINITION. The words the core and its host speak: the thirteen commands (spec/30_encoding.md R92), the fields of a
command word (R90), and the host's actions (spec/00_scope.md R9, spec/30_encoding.md R99).
-/

namespace Sys2Proof

/-- The thirteen commands, one constructor per row of spec/opcode_table.json (30_encoding.md R92). They have no
operands: every operand is a fixed register or buffer (R90, R96). -/
inductive Instr where
  /-- PARSE.A, 40_headercodec.md R121. -/
  | parseA
  /-- PARSE.B, 40_headercodec.md R122. -/
  | parseB
  /-- BUILD, 40_headercodec.md R124. -/
  | build
  /-- RDC.A, 40_headercodec.md R125. -/
  | rdcA
  /-- RDC.B, 40_headercodec.md R126. -/
  | rdcB
  /-- WRC, 40_headercodec.md R127. -/
  | wrc
  /-- DMX.L, 41_downmix.md R151. -/
  | dmxL
  /-- DMX.R, 41_downmix.md R152. -/
  | dmxR
  /-- DMX.S, 41_downmix.md R153. -/
  | dmxS
  /-- DMX.D, 41_downmix.md R154. -/
  | dmxD
  /-- MRG, 42_merge.md R171. -/
  | mrg
  /-- MSE, 43_midside_encode.md R182. -/
  | mse
  /-- MSD, 44_midside_decode.md R192. -/
  | msd
deriving DecidableEq, Repr

/-- The two sides of the block (30_encoding.md R95; 10_state.md R30). -/
inductive Side where
  | a
  | b
deriving DecidableEq, Repr

/-- The down-mix selector, "a closed, fixed set of modes" (30_encoding.md R94). -/
inductive Sel where
  | left
  | right
  | midSum
  | midDiff
deriving DecidableEq, Repr

/-- The three fields of format C8 (30_encoding.md R90). -/
structure CmdFields where
  /-- Bits 7..6, reserved, must be 0. -/
  rsv : BitVec 2
  /-- Bits 5..4, sub-operation select. -/
  sel : BitVec 2
  /-- Bits 3..0, opcode. -/
  op : BitVec 4
deriving DecidableEq, Repr

/-- Why a word is illegal (the classes 30_encoding.md R97 lists, in the order of the fields). Which class it is
cannot be observed: all of them raise IllegalCommand (60_exceptions.md R202). -/
inductive Illegal where
  /-- RSV is not 0. -/
  | reservedBits
  /-- OP = 0, or OP = 9 to 15. -/
  | reservedOpcode
  /-- SEL is not 0 for BUILD, WRC, MRG, MSE, MSD, or is 2 or 3 for PARSE, RDC. -/
  | reservedSelect
deriving DecidableEq, Repr

/-- The buffers, each an address space of its own (20_memory.md R60). -/
inductive BufId where
  | sa
  | sb
  | pa
  | pb
  | po
  | oh
  | haRaw
  | hbRaw
deriving DecidableEq, Repr

/-- The named registers of 10_state.md R46. -/
inductive Reg where
  | cmd
  | status
  | salen
  | sblen
  | palen
  | pblen
  | polen
  | haCh
  | haRate
  | haBps
  | haDsize
  | hbCh
  | hbRate
  | hbBps
  | hbDsize
  | och
  | orate
  | obps
  | odsize
deriving DecidableEq, Repr

/-- The value of a WR: a number, or the value of a register read for it, the `RD(reg)` of 30_encoding.md R99. -/
inductive HostValue where
  | lit (v : Nat)
  | rd (n : Nat)
deriving DecidableEq, Repr

/-- The six things the host can do, each between commands (00_scope.md R9). Registers are named by their number
(10_state.md R46), reserved numbers included: those are refused when they are carried out. -/
inductive HostAction where
  /-- `LOAD X, bytes`: replace the whole content of an input buffer and set its length. -/
  | load (x : BufId) (bytes : List Byte)
  /-- `WR reg, v`: write a host-writable register. -/
  | wr (n : Nat) (v : HostValue)
  /-- `RD reg`: read a register. -/
  | rd (n : Nat)
  /-- `READ X`: read the content of a buffer. -/
  | read (x : BufId)
  /-- `CMD w`: issue the 8-bit command word w. -/
  | cmd (w : Byte)
  /-- `RESET` (70_reset_and_hazards.md R230). -/
  | reset
deriving DecidableEq, Repr

/-- One line of the host's script: an action, or the STOP-IF-ERR of 30_encoding.md R100. -/
inductive HostLine where
  | act (a : HostAction)
  | stopIfErr
deriving DecidableEq, Repr

/-- What RD and READ hand to the host (00_scope.md R9). -/
inductive HostDatum where
  | value (v : Nat)
  | content (bytes : List Byte)
deriving DecidableEq, Repr

end Sys2Proof
end

