-- ==== Sys2Proof/WellFormed.lean ====
section
/-!
DEFINITION. Which command words are legal, field by field (spec/30_encoding.md R90, R93, R94, R95, R97), and that an
instruction carries legal fields. The host's actions are checked where they are carried out (Machine/HostPort.lean).
-/

namespace Sys2Proof

/-- RSV is "reserved, must be 0" (R90). -/
def CmdFields.rsvOk (f : CmdFields) : Bool := f.rsv == 0

/-- OP 0 and 9 to 15 are reserved (R93). -/
def CmdFields.opOk (f : CmdFields) : Bool := 1 ≤ f.op.toNat && f.op.toNat ≤ 8

/-- SEL: any value for DMX (OP 5, R94), 0 or 1 for PARSE and RDC (OP 1 and 3, R95), 0 for every other opcode (R90). -/
def CmdFields.selOk (f : CmdFields) : Bool :=
  if f.op == 5 then true
  else if f.op == 1 || f.op == 3 then f.sel.toNat ≤ 1
  else f.sel == 0

/-- A legal word's fields: the three checks together (R97 lists the words that fail one). -/
def CmdFields.wf (f : CmdFields) : Bool := f.rsvOk && f.opOk && f.selOk

/-- The fields of each command: the OP and SEL columns of R92, with RSV = 0. -/
def Instr.fields : Instr → CmdFields
  | .parseA => ⟨0, 0, 1⟩
  | .parseB => ⟨0, 1, 1⟩
  | .build  => ⟨0, 0, 2⟩
  | .rdcA   => ⟨0, 0, 3⟩
  | .rdcB   => ⟨0, 1, 3⟩
  | .wrc    => ⟨0, 0, 4⟩
  | .dmxL   => ⟨0, 0, 5⟩
  | .dmxR   => ⟨0, 1, 5⟩
  | .dmxS   => ⟨0, 2, 5⟩
  | .dmxD   => ⟨0, 3, 5⟩
  | .mrg    => ⟨0, 0, 6⟩
  | .mse    => ⟨0, 0, 7⟩
  | .msd    => ⟨0, 0, 8⟩

/-- A well-formed instruction carries legal fields. Instructions have no operands, so every one is well formed
(Laws/PerInstr.lean proves it per constructor). -/
def Instr.wf (i : Instr) : Bool := i.fields.wf

end Sys2Proof
end

