-- ==== Sys2Proof/Decode.lean ====
section
/-!
DEFINITION. Decoding, total on the 256 command words (spec/30_encoding.md R91), and after it the encoder. The decoder
compares whole words with the `match` column of R92; the encoder puts the RSV, SEL and OP columns together (R90).
-/

namespace Sys2Proof

/-- The `match` column of 30_encoding.md R92. The mask of every row is 0xFF (R91). -/
def opcodeTable : List (Byte × Instr) :=
  [ (0x01, .parseA), (0x11, .parseB), (0x02, .build), (0x03, .rdcA), (0x13, .rdcB), (0x04, .wrc),
    (0x05, .dmxL), (0x15, .dmxR), (0x25, .dmxS), (0x35, .dmxD), (0x06, .mrg), (0x07, .mse), (0x08, .msd) ]

/-- The fields of a word: RSV = w[7:6], SEL = w[5:4], OP = w[3:0] (R90). -/
def CmdFields.ofWord (w : Byte) : CmdFields :=
  ⟨w.extractLsb' 6 2, w.extractLsb' 4 2, w.extractLsb' 0 4⟩

/-- `w = RSV * 64 + SEL * 16 + OP` (R90). -/
def CmdFields.toWord (f : CmdFields) : Byte :=
  BitVec.ofNat 8 (f.rsv.toNat * 64 + f.sel.toNat * 16 + f.op.toNat)

/-- The name of the rejection of a word outside the table (the classes of R97). -/
def illegalReason (f : CmdFields) : Illegal :=
  if f.rsvOk then (if f.opOk then .reservedSelect else .reservedOpcode) else .reservedBits

/-- `decode(w)` is the command whose `match` equals w, if there is one, and illegal otherwise (R91). It reads
nothing but w. -/
def decode (w : Byte) : Except Illegal Instr :=
  match opcodeTable.find? (fun r => r.1 == w) with
  | some r => .ok r.2
  | none => .error (illegalReason (CmdFields.ofWord w))

/-- The word of an instruction, from the RSV, SEL and OP columns of R92. -/
def encode (i : Instr) : Byte := i.fields.toWord

/-- What the decoder reads from an instruction whose bits are w. Every command is exactly one byte (R98), so an
instruction with a bit above bit 7 is none. -/
def decodeTableWord (_nbits w : Nat) : Option Instr :=
  if w < 256 then (decode (BitVec.ofNat 8 w)).toOption else none

end Sys2Proof
end

