-- ==== Sys2Proof/Config.lean ====
section
/-!
DEFINITION. What an implementation of APA-T5 CORE fixes: the one open parameter CAP (spec/00_scope.md R6,
spec/92_eei_decisions.md D4). It is opaque, so that nothing in Lean can use a particular value of it (log entry 3).
-/

namespace Sys2Proof.Config

/-- CAP with its stated bound: `0 <= CAP <= 2^31 - 1` (R6). No body: every claim holds for every value. -/
opaque cap : Fin (2147483647 + 1)

/-- The largest payload, in bytes (R6). -/
def CAP : Nat := cap.val

end Sys2Proof.Config
end

