-- ==== Sys2Proof/Machine/State.lean ====
section
/-!
DEFINITION. The state of APA-T5 CORE as plain data: everything spec/10_state.md R30 names, and the host's script
(R44), with the state after reset (R48; spec/70_reset_and_hazards.md R230).
-/

namespace Sys2Proof.Machine

/-- The content of one buffer: (offset, byte) cells, offsets strictly rising, no cell equal to what an unlisted
offset reads as (`Memory.unlisted`, Machine/Ops.lean; log entry 4). -/
abbrev Memory := List Host.Cell

/-- A variable-length buffer with its length register (10_state.md R31). The bytes that exist are those at offsets
below `len` (R33). -/
structure Buffer where
  /-- The length register XLEN, 32 bits (R45). -/
  len : Word
  /-- The content (20_memory.md R60). -/
  mem : Memory
deriving DecidableEq, Repr

/-- A header register set (10_state.md R35). -/
structure HdrRegs where
  /-- Hx.CH, channel count. -/
  ch : Half
  /-- Hx.RATE, sample rate in Hz. -/
  rate : Word
  /-- Hx.BPS, bits per sample. -/
  bps : Half
  /-- Hx.DSIZE, the declared data-chunk size in bytes. -/
  dsize : Word
  /-- Hx.RAW, "a copy of the raw header bytes for diagnostic use": 44 bytes. -/
  raw : Memory
deriving DecidableEq, Repr

/-- The error kinds a command can end with, in the order of their codes 1 to 7 (60_exceptions.md R200). -/
inductive ErrKind where
  | invalidHeaderLength
  | invalidHeaderTag
  | unsupportedFormat
  | mismatchedInputs
  | emptyPayload
  | fieldOverflow
  | illegalCommand
deriving DecidableEq, Repr

/-- The state: the block's own (10_state.md R30), then the host's side (R44; log entries 1 and 5). -/
structure State where
  /-- Source buffer SA with SALEN. -/
  sa : Buffer
  /-- Source buffer SB with SBLEN. -/
  sb : Buffer
  /-- Payload buffer PA with PALEN. -/
  pa : Buffer
  /-- Payload buffer PB with PBLEN. -/
  pb : Buffer
  /-- Output payload buffer PO with POLEN. -/
  po : Buffer
  /-- Header register set HA. -/
  ha : HdrRegs
  /-- Header register set HB. -/
  hb : HdrRegs
  /-- OCH, the `channels` argument of BUILD and WRC (R38). -/
  och : Half
  /-- ORATE, the `sampleRate` argument (R38). -/
  orate : Word
  /-- OBPS, the `bitsPerSample` argument (R38). -/
  obps : Half
  /-- ODSIZE, the `dataSize` argument of BUILD (R38). -/
  odsize : Word
  /-- OH, the output header: always 44 bytes (R34). -/
  oh : Memory
  /-- STATUS: ERR in bits 3..0, STICKY in bit 4 (R39). -/
  status : BitVec 5
  /-- The model's own: the lines of the host's script still to be carried out (R44, log entry 1). -/
  pending : List HostLine
  /-- The model's own: the position in the script (R44, log entry 1). -/
  pos : Nat
  /-- The model's own: what the host has read so far, oldest first (R9, log entry 5). -/
  received : List HostDatum
deriving DecidableEq, Repr

/-- The reasons a step stops with a fault: there are none. An error of this block is recorded in STATUS and the block
goes on (60_exceptions.md R204, R206), and "every command on every state has exactly one next state"
(93_implementation_defined.md, after U16). -/
inductive Fault where
deriving DecidableEq, Repr

/-- The reasons a step is refused. Except for the first, each is a host action that "is not a step of the machine"
(00_scope.md R9; 60_exceptions.md R211), or a script with no line left. No command is refused. All are safe: a run
stops where the spec gives no next state. -/
inductive Refusal where
  /-- Raised by `exec` for an instruction without a meaning; every instruction of this model has one. Safe. -/
  | notModelled (mnemonic : String)
  /-- Raised by `step` when the script is exhausted: the block waits for a host action (70_reset_and_hazards.md R230;
  10_state.md R44; log entry 2). Safe. -/
  | noHostAction
  /-- Raised by LOAD into PO, OH, HA.RAW or HB.RAW (10_state.md R47). Safe. -/
  | notLoadable (x : BufId)
  /-- Raised by a LOAD longer than the buffer's capacity (R9, R31). Safe. -/
  | loadTooLong (x : BufId)
  /-- Raised by RD or WR of a reserved register number (10_state.md R46). Safe. -/
  | reservedRegister (n : Nat)
  /-- Raised by RD of the write-only port CMD (10_state.md R41). Safe. -/
  | notReadable (r : Reg)
  /-- Raised by WR of STATUS or of a length register (10_state.md R46, R47). Safe. -/
  | notWritable (r : Reg)
  /-- Raised by WR of a value wider than the register (R9). Safe. -/
  | valueTooWide (r : Reg)
deriving DecidableEq, Repr

/-- An empty buffer: length 0 and nothing listed. -/
def Buffer.empty : Buffer := ⟨0, []⟩

/-- A header register set after reset: numbers 0 and 44 bytes of 0x00 (R48). -/
def HdrRegs.zero : HdrRegs := ⟨0, 0, 0, 0, []⟩

/-- The machine after reset: "every length register is 0", every numeric register 0, HA.RAW, HB.RAW and OH 44 bytes
of 0x00, STATUS 0 (10_state.md R48; 70_reset_and_hazards.md R230). The host's script is empty (log entry 1). -/
def State.reset : State where
  sa := .empty
  sb := .empty
  pa := .empty
  pb := .empty
  po := .empty
  ha := .zero
  hb := .zero
  och := 0
  orate := 0
  obps := 0
  odsize := 0
  oh := []
  status := 0
  pending := []
  pos := 0
  received := []

end Sys2Proof.Machine
end

