-- ==== Sys2Proof/Machine/Flags.lean ====
section
/-!
DEFINITION. STATUS: its two fields and the two ways a command writes them (spec/10_state.md R39,
spec/60_exceptions.md R200, R204).
-/

namespace Sys2Proof.Machine

/-- The code of an error kind in STATUS.ERR (60_exceptions.md R200). -/
def ErrKind.code : ErrKind → Nat
  | .invalidHeaderLength => 1
  | .invalidHeaderTag => 2
  | .unsupportedFormat => 3
  | .mismatchedInputs => 4
  | .emptyPayload => 5
  | .fieldOverflow => 6
  | .illegalCommand => 7

/-- STATUS.ERR, bits 3..0 (R39). -/
def statusErr (st : BitVec 5) : BitVec 4 := st.extractLsb' 0 4

/-- STATUS.STICKY, bit 4 (R39). -/
def statusSticky (st : BitVec 5) : BitVec 1 := st.extractLsb' 4 1

/-- STATUS from its two fields: bit 4 and bits 3..0 (R39). -/
def statusOf (sticky : BitVec 1) (err : BitVec 4) : BitVec 5 := sticky ++ err

/-- What a failing command writes: its code in ERR and STICKY set (R39, R204). -/
def statusOnError (e : ErrKind) : BitVec 5 := statusOf 1 (BitVec.ofNat 4 e.code)

/-- What a successful command writes: 0 in ERR, STICKY unchanged (R39). -/
def statusOnSuccess (st : BitVec 5) : BitVec 5 := statusOf (statusSticky st) 0

end Sys2Proof.Machine
end

