-- ==== Sys2Proof/Machine/Operands.lean ====
section
/-!
DEFINITION. Operand forms: the signedness and arithmetic helpers (spec/00_scope.md R13, R14), little-endian reads and
writes of byte sequences (R15; spec/20_memory.md R62), the payload formats (spec/20_memory.md R70) and the register
map (spec/10_state.md R46). Arithmetic is on unbounded integers (R11).
-/

namespace Sys2Proof.Machine

/-- `s16(u)`: subtract 0x10000 when the field is at least 0x8000 (R13). -/
def s16 (u : Nat) : Int := if u ≥ 0x8000 then (u : Int) - 0x10000 else u

/-- `u16(v)`: v mod 0x10000, in [0, 0xFFFF] (R13). Lean's `%` by a positive number is the mathematical mod. -/
def u16 (v : Int) : Nat := (v % 0x10000).toNat

/-- `fdiv2(x)`: floor(x / 2), toward negative infinity (R14; 90_conflicts.md C2). Lean's `/` by a positive number is
the floor. -/
def fdiv2 (x : Int) : Int := x / 2

/-- `fdiv8(x)`: floor(x / 8), only applied to x at least 0 (R14). -/
def fdiv8 (x : Nat) : Nat := x / 8

/-- `clamp16(x)`: to the closed range [-32768, 32767] (R14). -/
def clamp16 (x : Int) : Int := if x < -32768 then -32768 else if x > 32767 then 32767 else x

/-- `MemRead(X, a, n)`: the sum of X[a+i] * 256^i, little-endian, unsigned (R15). Every use has a + n at most the
length of X, in every state (20_memory.md R70), so the default of `getD` is never read. -/
def memRead (X : List Byte) (a n : Nat) : Nat :=
  ((List.range n).map fun i => (X.getD (a + i) 0).toNat * 256 ^ i).sum

/-- The n bytes that `MemWrite` stores for v, lowest offset first: floor(v / 256^i) mod 256 (R15). -/
def leBytes (n v : Nat) : List Byte := (List.range n).map fun i => BitVec.ofNat 8 (v / 256 ^ i)

/-- `X[a .. b)` (R15): empty when a is at least b. -/
def slice (X : List Byte) (a b : Nat) : List Byte := (X.drop a).take (b - a)

/-- Frame i of a stereo 16 payload, left at the lower offset (20_memory.md R70; R19). -/
def stereoFrame (P : List Byte) (i : Nat) : Int × Int :=
  (s16 (memRead P (4 * i) 2), s16 (memRead P (4 * i + 2) 2))

/-- The coded sample i of a coded mid/side payload, a 32-bit word (20_memory.md R70). -/
def codedSample (P : List Byte) (i : Nat) : Nat := memRead P (4 * i) 4

/-- The four bytes of a stereo 16 frame (20_memory.md R70). -/
def stereoBytes (f : Int × Int) : List Byte := leBytes 2 (u16 f.1) ++ leBytes 2 (u16 f.2)

/-- The register numbers of 10_state.md R46. 0x07 and 0x14 and above are reserved. -/
def regOfNumber : Nat → Option Reg
  | 0x00 => some .cmd
  | 0x01 => some .status
  | 0x02 => some .salen
  | 0x03 => some .sblen
  | 0x04 => some .palen
  | 0x05 => some .pblen
  | 0x06 => some .polen
  | 0x08 => some .haCh
  | 0x09 => some .haRate
  | 0x0A => some .haBps
  | 0x0B => some .haDsize
  | 0x0C => some .hbCh
  | 0x0D => some .hbRate
  | 0x0E => some .hbBps
  | 0x0F => some .hbDsize
  | 0x10 => some .och
  | 0x11 => some .orate
  | 0x12 => some .obps
  | 0x13 => some .odsize
  | _ => none

/-- The width of each register in bits (10_state.md R45). -/
def regWidth : Reg → Nat
  | .cmd => 8
  | .status => 5
  | .salen | .sblen | .palen | .pblen | .polen => 32
  | .haCh | .haBps | .hbCh | .hbBps | .och | .obps => 16
  | .haRate | .hbRate | .haDsize | .hbDsize | .orate | .odsize => 32

end Sys2Proof.Machine
end

