-- ==== Sys2Proof/Machine/Ops.lean ====
section
/-!
DEFINITION. The operations the meanings share: reading and replacing the content of a buffer (spec/10_state.md R31,
R33), writing a header register set as a whole (R36), the capacities (R31), and the two ways a command ends: raising an
error (spec/00_scope.md R17, spec/60_exceptions.md R204) and succeeding (spec/10_state.md R39). There is no return from
an error and nothing to restore (spec/60_exceptions.md R206), so no operation stands beside `State.raise` for it.
-/

namespace Sys2Proof.Machine

/-- What an offset that no cell lists reads as: 0x00, the byte the spec gives HA.RAW, HB.RAW and OH at reset
(10_state.md R48). A buffer's length register says which offsets exist at all (R33). -/
def Memory.unlisted : Byte := 0x00

/-- The byte at offset a. -/
def Memory.read (m : Memory) (a : Nat) : Byte :=
  match m.find? (fun c => c.1 == a) with
  | some c => c.2
  | none => Memory.unlisted

/-- The bytes at offsets 0 to n - 1. -/
def Memory.bytes (m : Memory) (n : Nat) : List Byte := (List.range n).map m.read

/-- The cells of a byte sequence laid out from offset k on. -/
def Memory.ofBytesFrom (k : Nat) : List Byte → Memory
  | [] => []
  | b :: bs => if b = Memory.unlisted then Memory.ofBytesFrom (k + 1) bs else (k, b) :: Memory.ofBytesFrom (k + 1) bs

/-- The memory that holds exactly a byte sequence: a written buffer is replaced whole, nothing of the old content
remains (10_state.md R33). -/
def Memory.ofBytes (bs : List Byte) : Memory := Memory.ofBytesFrom 0 bs

/-- The canonical form from offset k to below n: offsets strictly rising, none equal to an unlisted one's byte. -/
def Memory.wfFrom (k n : Nat) : Memory → Bool
  | [] => true
  | c :: m => k ≤ c.1 && c.1 < n && c.2 != Memory.unlisted && Memory.wfFrom (c.1 + 1) n m

/-- The canonical form of a memory whose offsets are 0 to n - 1. -/
def Memory.wf (n : Nat) (m : Memory) : Bool := Memory.wfFrom 0 n m

/-- The content of a buffer: the byte sequence of its XLEN bytes (00_scope.md R15; 10_state.md R33). -/
def Buffer.bytes (x : Buffer) : List Byte := x.mem.bytes x.len.toNat

/-- The buffer that is exactly a byte sequence, its length register the new length (10_state.md R33; log entry 11). -/
def Buffer.ofBytes (bs : List Byte) : Buffer := ⟨BitVec.ofNat 32 bs.length, Memory.ofBytes bs⟩

/-- The canonical form of a buffer: no cell at or beyond its length (R33), and the length at most n. -/
def Buffer.wf (n : Nat) (x : Buffer) : Bool := x.mem.wf x.len.toNat && x.len.toNat ≤ n

/-- The length of a header, of OH and of HA.RAW, HB.RAW (00_scope.md R7). -/
def headerLength : Nat := 44

/-- The capacity of each buffer in bytes (10_state.md R31, R34, R35). -/
def bufCapacity : BufId → Nat
  | .sa | .sb => 44 + Config.CAP
  | .pa | .pb => Config.CAP
  | .po => 2 * Config.CAP
  | .oh | .haRaw | .hbRaw => headerLength

/-- The source buffer of a side (30_encoding.md R95). -/
def State.source (s : State) : Side → Buffer
  | .a => s.sa
  | .b => s.sb

/-- The header register set of a side (30_encoding.md R95). -/
def State.hdr (s : State) : Side → HdrRegs
  | .a => s.ha
  | .b => s.hb

/-- Write a header register set as a whole (10_state.md R36). -/
def State.setHdr (s : State) (x : Side) (h : HdrRegs) : State :=
  match x with
  | .a => { s with ha := h }
  | .b => { s with hb := h }

/-- Replace a payload buffer and its length register (10_state.md R31, R33). -/
def State.setPayload (s : State) (x : Side) (p : Buffer) : State :=
  match x with
  | .a => { s with pa := p }
  | .b => { s with pb := p }

/-- Replace the output payload and POLEN (10_state.md R31, R33). -/
def State.setOut (s : State) (bs : List Byte) : State := { s with po := Buffer.ofBytes bs }

/-- Write the output header OH as a whole (10_state.md R34). -/
def State.setOutHeader (s : State) (bs : List Byte) : State := { s with oh := Memory.ofBytes bs }

/-- Taking an exception, which here is `raise E`: STATUS.ERR gets the code of E, STATUS.STICKY is set, and nothing
else changes; control goes nowhere (00_scope.md R17; 60_exceptions.md R204). -/
def State.raise (s : State) (e : ErrKind) : State := { s with status := statusOnError e }

/-- The end of a successful command: STATUS.ERR is 0, STATUS.STICKY is unchanged (10_state.md R39). -/
def State.succeed (s : State) : State := { s with status := statusOnSuccess s.status }

/-- The output container, meaningful after a successful WRC: `OH ++ PO[0 .. POLEN)` (10_state.md R34). -/
def State.outputContainer (s : State) : List Byte := s.oh.bytes headerLength ++ s.po.bytes

end Sys2Proof.Machine
end

