-- ==== Sys2Proof/Machine/Downmix.lean ====
section
/-!
DEFINITION. The stereo down-mixer: the function `downmix` and the commands DMX.L, DMX.R, DMX.S, DMX.D
(spec/41_downmix.md).
-/

namespace Sys2Proof.Machine

/-- The mono sample of one stereo frame under a selector (41_downmix.md R150). No clamp (R155; 90_conflicts.md C7). -/
def downmixFrame (sel : Sel) (f : Int × Int) : Int :=
  match sel with
  | .left => f.1
  | .right => f.2
  | .midSum => fdiv2 (f.1 + f.2)
  | .midDiff => fdiv2 (f.1 - f.2)

/-- `downmix(sel, P, L)` with L the length of P: one int16 per complete 4-byte frame, trailing bytes ignored
(41_downmix.md R150). -/
def downmix (sel : Sel) (P : List Byte) : List Byte :=
  (List.range (P.length / 4)).flatMap fun i => leBytes 2 (u16 (downmixFrame sel (stereoFrame P i)))

/-- The format test of the stereo 16 transformers: "channels == 2, bitsPerSample == 16" (41_downmix.md R151;
43_midside_encode.md R182). -/
def State.isStereo16 (s : State) : Bool := s.ha.ch == 2 && s.ha.bps == 16

/-- The shared course of the four DMX commands (41_downmix.md R151 to R154). -/
def runDownmix (sel : Sel) (s : State) : Host.Outcome State Fault Refusal :=
  if s.isStereo16 then .next (s.setOut (downmix sel s.pa.bytes)).succeed
  else .next (s.raise .unsupportedFormat)

/-- DMX.L (41_downmix.md R151). -/
def execDmxL (s : State) : Host.Outcome State Fault Refusal := runDownmix .left s

/-- DMX.R (41_downmix.md R152). -/
def execDmxR (s : State) : Host.Outcome State Fault Refusal := runDownmix .right s

/-- DMX.S (41_downmix.md R153). -/
def execDmxS (s : State) : Host.Outcome State Fault Refusal := runDownmix .midSum s

/-- DMX.D (41_downmix.md R154). -/
def execDmxD (s : State) : Host.Outcome State Fault Refusal := runDownmix .midDiff s

end Sys2Proof.Machine
end

