-- ==== Sys2Proof/Machine/HeaderCodec.lean ====
section
/-!
DEFINITION. HeaderCodec: the header parser and the header serialiser as pure functions on byte sequences, and the
commands PARSE.A, PARSE.B, BUILD, RDC.A, RDC.B, WRC (spec/40_headercodec.md; layout spec/20_memory.md R66, R67).
-/

namespace Sys2Proof.Machine

/-- "RIFF", as the bytes 20_memory.md R67 gives (93_implementation_defined.md G1 says where the spec has them from). -/
def tagRIFF : List Byte := [0x52, 0x49, 0x46, 0x46]

/-- "WAVE" (20_memory.md R67). -/
def tagWAVE : List Byte := [0x57, 0x41, 0x56, 0x45]

/-- "fmt " with its trailing space (20_memory.md R67). -/
def tagFmt : List Byte := [0x66, 0x6D, 0x74, 0x20]

/-- "data" (20_memory.md R67). -/
def tagData : List Byte := [0x64, 0x61, 0x74, 0x61]

/-- What `parse_header` returns (40_headercodec.md R120). -/
structure Header where
  ch : Nat
  rate : Nat
  bps : Nat
  dsize : Nat
  raw : List Byte
deriving DecidableEq, Repr

/-- The five literal fields: the four tags and the format-chunk length 16 (20_memory.md R68; 90_conflicts.md C1). -/
def literalsMatch (S : List Byte) : Bool :=
  slice S 0 4 == tagRIFF && slice S 8 12 == tagWAVE && slice S 12 16 == tagFmt && slice S 36 40 == tagData
    && memRead S 16 4 == 16

/-- `parse_header(S, n)` with n the length of S (40_headercodec.md R120). -/
def parseHeader (S : List Byte) : Except ErrKind Header :=
  if S.length < headerLength then .error .invalidHeaderLength
  else if literalsMatch S then
    .ok { ch := memRead S 22 2, rate := memRead S 24 4, bps := memRead S 34 2, dsize := memRead S 40 4,
          raw := slice S 0 44 }
  else .error .invalidHeaderTag

/-- byteRate: the product first, then one floor division by 8 (40_headercodec.md R123; 90_conflicts.md C10). -/
def byteRate (ch rate bps : Nat) : Nat := fdiv8 (rate * ch * bps)

/-- blockAlign (40_headercodec.md R123; 90_conflicts.md C10). -/
def blockAlign (ch bps : Nat) : Nat := fdiv8 (ch * bps)

/-- riffSize (40_headercodec.md R123). -/
def riffSize (ds : Nat) : Nat := 36 + ds

/-- The 44 bytes of a header: the thirteen fields in order, so that each stands at its offset, the running sum of the
widths before it (40_headercodec.md R123; offsets 20_memory.md R66). The format-chunk length is 16 and the audio format
code 1. -/
def headerBytes (ch rate bps ds : Nat) : List Byte :=
  tagRIFF ++ leBytes 4 (riffSize ds) ++ tagWAVE ++ tagFmt ++ leBytes 4 16 ++ leBytes 2 1 ++ leBytes 2 ch
    ++ leBytes 4 rate ++ leBytes 4 (byteRate ch rate bps) ++ leBytes 2 (blockAlign ch bps) ++ leBytes 2 bps
    ++ tagData ++ leBytes 4 ds

/-- `build_header(ch, rate, bps, ds)`: the three computed fields are tested, nothing else (40_headercodec.md R123). -/
def buildHeader (ch rate bps ds : Nat) : Except ErrKind (List Byte) :=
  if byteRate ch rate bps > 0xFFFFFFFF ∨ blockAlign ch bps > 0xFFFF ∨ riffSize ds > 0xFFFFFFFF then
    .error .fieldOverflow
  else .ok (headerBytes ch rate bps ds)

/-- The header register set that holds a parsed header (10_state.md R35). -/
def Header.regs (h : Header) : HdrRegs where
  ch := BitVec.ofNat 16 h.ch
  rate := BitVec.ofNat 32 h.rate
  bps := BitVec.ofNat 16 h.bps
  dsize := BitVec.ofNat 32 h.dsize
  raw := Memory.ofBytes h.raw

/-- PARSE on one side: parse Sx into Hx, or raise with Hx unchanged (40_headercodec.md R121, R122). -/
def parseSide (x : Side) (s : State) : Host.Outcome State Fault Refusal :=
  match parseHeader (s.source x).bytes with
  | .error e => .next (s.raise e)
  | .ok h => .next (s.setHdr x h.regs).succeed

/-- RDC on one side: parse Sx into Hx and copy the payload that is present, at most DSIZE bytes, into Px, or raise
with Hx and Px unchanged (40_headercodec.md R125, R126). -/
def readSide (x : Side) (s : State) : Host.Outcome State Fault Refusal :=
  match parseHeader (s.source x).bytes with
  | .error e => .next (s.raise e)
  | .ok h =>
    let n := min h.dsize ((s.source x).len.toNat - 44)
    .next ((s.setHdr x h.regs).setPayload x (Buffer.ofBytes (slice (s.source x).bytes 44 (44 + n)))).succeed

/-- Build a header with a given data size into OH, or raise with OH unchanged (40_headercodec.md R124, R127). -/
def writeHeader (ds : Nat) (s : State) : Host.Outcome State Fault Refusal :=
  match buildHeader s.och.toNat s.orate.toNat s.obps.toNat ds with
  | .error e => .next (s.raise e)
  | .ok H => .next (s.setOutHeader H).succeed

/-- PARSE.A (40_headercodec.md R121). -/
def execParseA (s : State) : Host.Outcome State Fault Refusal := parseSide .a s

/-- PARSE.B (40_headercodec.md R122). -/
def execParseB (s : State) : Host.Outcome State Fault Refusal := parseSide .b s

/-- BUILD: the data size is ODSIZE (40_headercodec.md R124). -/
def execBuild (s : State) : Host.Outcome State Fault Refusal := writeHeader s.odsize.toNat s

/-- RDC.A (40_headercodec.md R125). -/
def execRdcA (s : State) : Host.Outcome State Fault Refusal := readSide .a s

/-- RDC.B (40_headercodec.md R126). -/
def execRdcB (s : State) : Host.Outcome State Fault Refusal := readSide .b s

/-- WRC: the data size is POLEN, ODSIZE is not read (40_headercodec.md R127). -/
def execWrc (s : State) : Host.Outcome State Fault Refusal := writeHeader s.po.len.toNat s

end Sys2Proof.Machine
end

