-- ==== Sys2Proof/Machine/Merge.lean ====
section
/-!
DEFINITION. The mono up-mixer: the function `merge` and the command MRG (spec/42_merge.md).
-/

namespace Sys2Proof.Machine

/-- `merge(X, LX, Y, LY)` with the lengths of X and Y: interleave 2-byte samples as bytes, up to the shorter
(42_merge.md R170). Every index is in range, so the default of `getD` is never read. -/
def merge (X Y : List Byte) : List Byte :=
  (List.range (min (X.length / 2) (Y.length / 2))).flatMap fun i =>
    [X.getD (2 * i) 0, X.getD (2 * i + 1) 0, Y.getD (2 * i) 0, Y.getD (2 * i + 1) 0]

/-- The six conditions of MRG (42_merge.md R171). The lengths compared are PALEN and PBLEN (90_conflicts.md C3). -/
def State.mergeable (s : State) : Bool :=
  s.ha.ch == 1 && s.hb.ch == 1 && s.ha.bps == 16 && s.hb.bps == 16 && s.ha.rate == s.hb.rate && s.pa.len == s.pb.len

/-- MRG (42_merge.md R171). POLEN is the 32-bit register of the new length; within the capacities it always fits
(10_state.md R32; log entry 11). -/
def execMrg (s : State) : Host.Outcome State Fault Refusal :=
  if s.mergeable then .next (s.setOut (merge s.pa.bytes s.pb.bytes)).succeed
  else .next (s.raise .mismatchedInputs)

end Sys2Proof.Machine
end

