-- ==== Sys2Proof/Machine/MidSide.lean ====
section
/-!
DEFINITION. The mid-side encoder and decoder: the commands MSE (spec/43_midside_encode.md) and MSD
(spec/44_midside_decode.md).
-/

namespace Sys2Proof.Machine

/-- The coded sample of one stereo frame: mid in bits 31..16, side in bits 15..0 (43_midside_encode.md R180, R181).
The two fields are disjoint, so their bitwise or is their sum; it is written as R181 writes it. -/
def encodeFrame (f : Int × Int) : Nat :=
  (u16 (fdiv2 (f.1 + f.2)) <<< 16) ||| u16 (fdiv2 (f.1 - f.2))

/-- The coded payload of a stereo payload: one 32-bit word per complete frame (43_midside_encode.md R182). -/
def midSideEncode (P : List Byte) : List Byte :=
  (List.range (P.length / 4)).flatMap fun i => leBytes 4 (encodeFrame (stereoFrame P i))

/-- The stereo frame of one coded sample: mid unsigned, side sign-reconstructed, both outputs clamped
(44_midside_decode.md R190; 90_conflicts.md C4). -/
def decodeSample (w : Nat) : Int × Int :=
  let mid : Int := ((w >>> 16) &&& 0xFFFF : Nat)
  let side := s16 (w &&& 0xFFFF)
  (clamp16 (mid + side), clamp16 (mid - side))

/-- The stereo payload of a coded payload (44_midside_decode.md R192). -/
def midSideDecode (P : List Byte) : List Byte :=
  (List.range (P.length / 4)).flatMap fun i => stereoBytes (decodeSample (codedSample P i))

/-- The format test of the decoder: "channels == 1, bitsPerSample == 32" (44_midside_decode.md R192). -/
def State.isCoded32 (s : State) : Bool := s.ha.ch == 1 && s.ha.bps == 32

/-- MSE (43_midside_encode.md R182). -/
def execMse (s : State) : Host.Outcome State Fault Refusal :=
  if s.isStereo16 then .next (s.setOut (midSideEncode s.pa.bytes)).succeed
  else .next (s.raise .unsupportedFormat)

/-- MSD: UnsupportedFormat is tested before EmptyPayload (44_midside_decode.md R192; 60_exceptions.md R203). -/
def execMsd (s : State) : Host.Outcome State Fault Refusal :=
  if s.isCoded32 then
    if s.pa.len = 0 then .next (s.raise .emptyPayload)
    else .next (s.setOut (midSideDecode s.pa.bytes)).succeed
  else .next (s.raise .unsupportedFormat)

end Sys2Proof.Machine
end

