-- ==== Sys2Proof/Machine/Dispatch.lean ====
section
/-!
DEFINITION. One arm per command, each one direct call of its meaning.
-/

namespace Sys2Proof.Machine

def exec (i : Instr) (s : State) : Host.Outcome State Fault Refusal :=
  match i with
  | .parseA => Sys2Proof.Machine.execParseA s
  | .parseB => Sys2Proof.Machine.execParseB s
  | .build => Sys2Proof.Machine.execBuild s
  | .rdcA => Sys2Proof.Machine.execRdcA s
  | .rdcB => Sys2Proof.Machine.execRdcB s
  | .wrc => Sys2Proof.Machine.execWrc s
  | .dmxL => Sys2Proof.Machine.execDmxL s
  | .dmxR => Sys2Proof.Machine.execDmxR s
  | .dmxS => Sys2Proof.Machine.execDmxS s
  | .dmxD => Sys2Proof.Machine.execDmxD s
  | .mrg => Sys2Proof.Machine.execMrg s
  | .mse => Sys2Proof.Machine.execMse s
  | .msd => Sys2Proof.Machine.execMsd s

end Sys2Proof.Machine
end

