-- ==== Sys2Proof/Machine/HostPort.lean ====
section
/-!
DEFINITION. The host's side of the block: the six host actions (spec/00_scope.md R9), the command port
(spec/10_state.md R41), the script of host actions (R44) and the four top-level operations as scripts
(spec/30_encoding.md R100).
-/

namespace Sys2Proof.Machine

/-- The value the host reads from a register (10_state.md R46). CMD holds nothing: reading it is refused (R41). -/
def State.readReg (s : State) : Reg → Option Nat
  | .cmd => none
  | .status => some s.status.toNat
  | .salen => some s.sa.len.toNat
  | .sblen => some s.sb.len.toNat
  | .palen => some s.pa.len.toNat
  | .pblen => some s.pb.len.toNat
  | .polen => some s.po.len.toNat
  | .haCh => some s.ha.ch.toNat
  | .haRate => some s.ha.rate.toNat
  | .haBps => some s.ha.bps.toNat
  | .haDsize => some s.ha.dsize.toNat
  | .hbCh => some s.hb.ch.toNat
  | .hbRate => some s.hb.rate.toNat
  | .hbBps => some s.hb.bps.toNat
  | .hbDsize => some s.hb.dsize.toNat
  | .och => some s.och.toNat
  | .orate => some s.orate.toNat
  | .obps => some s.obps.toNat
  | .odsize => some s.odsize.toNat

/-- Write a host-writable register: Hx.CH, Hx.RATE, Hx.BPS, Hx.DSIZE and the four output parameters, one at a time
and nothing else (10_state.md R36, R38, R46). None for a register the host may not write so (R47). -/
def State.writeReg (s : State) (r : Reg) (v : Nat) : Option State :=
  match r with
  | .cmd | .status | .salen | .sblen | .palen | .pblen | .polen => none
  | .haCh => some { s with ha := { s.ha with ch := BitVec.ofNat 16 v } }
  | .haRate => some { s with ha := { s.ha with rate := BitVec.ofNat 32 v } }
  | .haBps => some { s with ha := { s.ha with bps := BitVec.ofNat 16 v } }
  | .haDsize => some { s with ha := { s.ha with dsize := BitVec.ofNat 32 v } }
  | .hbCh => some { s with hb := { s.hb with ch := BitVec.ofNat 16 v } }
  | .hbRate => some { s with hb := { s.hb with rate := BitVec.ofNat 32 v } }
  | .hbBps => some { s with hb := { s.hb with bps := BitVec.ofNat 16 v } }
  | .hbDsize => some { s with hb := { s.hb with dsize := BitVec.ofNat 32 v } }
  | .och => some { s with och := BitVec.ofNat 16 v }
  | .orate => some { s with orate := BitVec.ofNat 32 v }
  | .obps => some { s with obps := BitVec.ofNat 16 v }
  | .odsize => some { s with odsize := BitVec.ofNat 32 v }

/-- The whole content of a buffer (10_state.md R47). -/
def State.readBuf (s : State) : BufId → List Byte
  | .sa => s.sa.bytes
  | .sb => s.sb.bytes
  | .pa => s.pa.bytes
  | .pb => s.pb.bytes
  | .po => s.po.bytes
  | .oh => s.oh.bytes headerLength
  | .haRaw => s.ha.raw.bytes headerLength
  | .hbRaw => s.hb.raw.bytes headerLength

/-- LOAD replaces the content and the length of an input buffer; SA, SB, PA, PB only (10_state.md R47). -/
def State.loadBuf (s : State) (x : BufId) (bs : List Byte) : Option State :=
  match x with
  | .sa => some { s with sa := Buffer.ofBytes bs }
  | .sb => some { s with sb := Buffer.ofBytes bs }
  | .pa => some { s with pa := Buffer.ofBytes bs }
  | .pb => some { s with pb := Buffer.ofBytes bs }
  | .po | .oh | .haRaw | .hbRaw => none

/-- RD by number: reserved numbers and CMD are refused (10_state.md R41, R46). -/
def State.readNumber (s : State) (n : Nat) : Except Refusal Nat :=
  match regOfNumber n with
  | none => .error (.reservedRegister n)
  | some r =>
    match s.readReg r with
    | none => .error (.notReadable r)
    | some v => .ok v

/-- The value of a WR: a number, or a register read for it at that moment (30_encoding.md R99; log entry 6). -/
def State.hostValue (s : State) : HostValue → Except Refusal Nat
  | .lit v => .ok v
  | .rd n => s.readNumber n

/-- Writing the word w to CMD: the core executes the command w encodes, as one atomic transition (10_state.md R41);
an illegal word raises IllegalCommand, changing STATUS only (30_encoding.md R97). -/
def issueCommand (w : Byte) (s : State) : Host.Outcome State Fault Refusal :=
  match decode w with
  | .ok i => exec i s
  | .error _ => .next (s.raise .illegalCommand)

/-- WR: a reserved number, a value wider than the register and a read-only register are refused (00_scope.md R9);
number 0x00 issues a command (10_state.md R46; log entry 8). Which reason a refusal names: log entry 10. -/
def writeNumber (n v : Nat) (s : State) : Host.Outcome State Fault Refusal :=
  match regOfNumber n with
  | none => .refused (.reservedRegister n)
  | some r =>
    if v < 2 ^ regWidth r then
      if r = .cmd then issueCommand (BitVec.ofNat 8 v) s
      else
        match s.writeReg r v with
        | none => .refused (.notWritable r)
        | some t => .next t
    else .refused (.valueTooWide r)

/-- LOAD (00_scope.md R9; 10_state.md R47; which reason a refusal names: log entry 10). -/
def loadAction (x : BufId) (bs : List Byte) (s : State) : Host.Outcome State Fault Refusal :=
  match s.loadBuf x bs with
  | none => .refused (.notLoadable x)
  | some t => if bs.length ≤ bufCapacity x then .next t else .refused (.loadTooLong x)

/-- RESET puts the block's state at its reset values (70_reset_and_hazards.md R230). The host's own script, position
and record are not the block's and stay (log entry 12). -/
def State.resetBlock (s : State) : State :=
  { State.reset with pending := s.pending, pos := s.pos, received := s.received }

/-- One host action (00_scope.md R9). LOAD, WR, RD and READ never change STATUS (10_state.md R39), except that a WR
to CMD is a command. -/
def perform (a : HostAction) (s : State) : Host.Outcome State Fault Refusal :=
  match a with
  | .load x bs => loadAction x bs s
  | .wr n v =>
    match s.hostValue v with
    | .error r => .refused r
    | .ok k => writeNumber n k s
  | .rd n =>
    match s.readNumber n with
    | .error r => .refused r
    | .ok v => .next { s with received := s.received ++ [.value v] }
  | .read x => .next { s with received := s.received ++ [.content (s.readBuf x)] }
  | .cmd w => issueCommand w s
  | .reset => .next s.resetBlock

/-- One line of the script. STOP-IF-ERR reads STATUS and, if ERR is not 0, abandons the rest (30_encoding.md R100;
log entry 7). -/
def performLine (l : HostLine) (s : State) : Host.Outcome State Fault Refusal :=
  match l with
  | .act a => perform a s
  | .stopIfErr => .next (if statusErr s.status = 0 then s else { s with pending := [] })

/-- Take the next line: the position advances by one (10_state.md R44). None when the script is exhausted. -/
def State.fetch (s : State) : Option (HostLine × State) :=
  match s.pending with
  | [] => none
  | l :: rest => some (l, { s with pending := rest, pos := s.pos + 1 })

/-- The register numbers of HA.RATE, OCH, ORATE, OBPS that the scripts below use (10_state.md R46). -/
def setOutputRegs (ch bps : Nat) : List HostLine :=
  [.act (.wr 0x10 (.lit ch)), .act (.wr 0x11 (.rd 0x09)), .act (.wr 0x12 (.lit bps))]

/-- `CMD <mnemonic> ; STOP-IF-ERR` (30_encoding.md R99, R100). -/
def cmdOrStop (i : Instr) : List HostLine := [.act (.cmd (encode i)), .stopIfErr]

/-- The DMX command of a selector (30_encoding.md R94). -/
def selCommand : Sel → Instr
  | .left => .dmxL
  | .right => .dmxR
  | .midSum => .dmxS
  | .midDiff => .dmxD

/-- TOP.DOWNMIX (30_encoding.md R100). -/
def topDownmix (sel : Sel) (input : List Byte) : List HostLine :=
  [.act (.load .sa input)] ++ cmdOrStop .rdcA ++ cmdOrStop (selCommand sel) ++ setOutputRegs 1 16 ++ cmdOrStop .wrc

/-- TOP.MERGE (30_encoding.md R100). -/
def topMerge (inLeft inRight : List Byte) : List HostLine :=
  [.act (.load .sa inLeft), .act (.load .sb inRight)] ++ cmdOrStop .rdcA ++ cmdOrStop .rdcB ++ cmdOrStop .mrg
    ++ setOutputRegs 2 16 ++ cmdOrStop .wrc

/-- TOP.ENCODE (30_encoding.md R100). -/
def topEncode (input : List Byte) : List HostLine :=
  [.act (.load .sa input)] ++ cmdOrStop .rdcA ++ cmdOrStop .mse ++ setOutputRegs 1 32 ++ cmdOrStop .wrc

/-- TOP.DECODE (30_encoding.md R100). -/
def topDecode (input : List Byte) : List HostLine :=
  [.act (.load .sa input)] ++ cmdOrStop .rdcA ++ cmdOrStop .msd ++ setOutputRegs 2 16 ++ cmdOrStop .wrc

end Sys2Proof.Machine
end

