-- ==== Sys2Proof/Machine/Step.lean ====
section
/-!
DEFINITION. One step of the machine: the next line of the host's script, carried out whole (spec/20_memory.md R71, R72;
spec/10_state.md R44). The block has no program counter; the host sequences the commands.
-/

namespace Sys2Proof.Machine

/-- One step. With no line left the block waits for the host: no step (log entry 2). -/
def step (s : State) : Host.Outcome State Fault Refusal :=
  match s.fetch with
  | none => .refused .noHostAction
  | some (l, t) => performLine l t

/-- The state in which the host's next action is `CMD w`: a command is one byte and comes from the host through the
command port, never from a buffer (20_memory.md R74; 30_encoding.md R98; log entry 1). -/
def State.withFetchWord (s : State) (_nbits w : Nat) : State :=
  { s with pending := .act (.cmd (BitVec.ofNat 8 w)) :: s.pending }

end Sys2Proof.Machine
end

