-- ==== Sys2Proof/Safety.lean ====
section
/-!
DEFINITION. What a legal state of the block is (spec/10_state.md R31, R33, R34, R39) and what a run without failure is
(R40), in the terms the claims use.
-/

namespace Sys2Proof.Machine

/-- STATUS is legal: ERR is one of 0 to 7 ("values 8 to 15 never occur"), and a failure is remembered in STICKY
(10_state.md R39). -/
def statusLegal (st : BitVec 5) : Bool :=
  (statusErr st).toNat ≤ 7 && (statusErr st == 0 || statusSticky st == 1)

/-- The invariant of the block: every buffer is in canonical form with nothing at or beyond its length (R33) and within
its capacity (R31), OH and the RAW buffers hold only offsets 0 to 43 (R34, R35), STATUS is legal (R39). -/
structure State.Inv (s : State) : Prop where
  sa : s.sa.wf (bufCapacity .sa) = true
  sb : s.sb.wf (bufCapacity .sb) = true
  pa : s.pa.wf (bufCapacity .pa) = true
  pb : s.pb.wf (bufCapacity .pb) = true
  po : s.po.wf (bufCapacity .po) = true
  haRaw : s.ha.raw.wf headerLength = true
  hbRaw : s.hb.raw.wf headerLength = true
  oh : s.oh.wf headerLength = true
  status : statusLegal s.status = true

/-- "No command of this sequence failed" (R40). -/
def State.nothingFailed (s : State) : Bool := statusSticky s.status == 0

end Sys2Proof.Machine
end

