-- ==== Sys2Proof/Certificates/Slice0/Obligations.lean ====
section
/-!
DEFINITION. The statements about APA-T5 CORE, from the numbered rules of spec/. They speak of the machine's bytes and
registers (`half`, `word`, two's complement values), not of the helper functions the meanings are written with, unless a
rule is itself about such a function.
-/

namespace Sys2Proof.Claims

open Sys2Proof.Machine

/-- The 16 bits at offset a, little-endian (20_memory.md R62). -/
def half (m : Memory) (a : Nat) : BitVec 16 := m.read (a + 1) ++ m.read a

/-- The 32 bits at offset a, little-endian (20_memory.md R62). -/
def word (m : Memory) (a : Nat) : BitVec 32 := m.read (a + 3) ++ m.read (a + 2) ++ m.read (a + 1) ++ m.read a

/-- Nothing is listed at or beyond offset n. -/
def endsAt (m : Memory) (n : Nat) : Prop := ∀ a, n ≤ a → m.read a = 0

/-- The four tags (20_memory.md R67). -/
def tags (m : Memory) : Prop :=
  m.read 0 = 0x52 ∧ m.read 1 = 0x49 ∧ m.read 2 = 0x46 ∧ m.read 3 = 0x46 ∧
  m.read 8 = 0x57 ∧ m.read 9 = 0x41 ∧ m.read 10 = 0x56 ∧ m.read 11 = 0x45 ∧
  m.read 12 = 0x66 ∧ m.read 13 = 0x6D ∧ m.read 14 = 0x74 ∧ m.read 15 = 0x20 ∧
  m.read 36 = 0x64 ∧ m.read 37 = 0x61 ∧ m.read 38 = 0x74 ∧ m.read 39 = 0x61

/-- The five literal fields of a header (20_memory.md R68). -/
def literalFields (m : Memory) : Prop := tags m ∧ word m 16 = 16

/-- STATUS after a success: ERR 0, STICKY unchanged (10_state.md R39). -/
def okStatus (s : State) : BitVec 5 := s.status &&& 0x10#5

/-- The header registers that a header's bytes give: RAW is a copy of the 44 bytes (40_headercodec.md R120). -/
def headerOf (h : HdrRegs) (m : Memory) : Prop :=
  h.ch = half m 22 ∧ h.rate = word m 24 ∧ h.bps = half m 34 ∧ h.dsize = word m 40 ∧
    (∀ a, a < 44 → h.raw.read a = m.read a) ∧ endsAt h.raw 44

/-- PARSE from a source into a header register set: its word, and all three outcomes with the whole next state. -/
def parses (w : Byte) (i : Instr) (src : State → Buffer) (put : State → HdrRegs → State) : Prop :=
  decode w = .ok i ∧ ∀ s : State,
    ((src s).len.toNat < 44 → exec i s = .next { s with status := 0x11#5 }) ∧
    (44 ≤ (src s).len.toNat → ¬literalFields (src s).mem → exec i s = .next { s with status := 0x12#5 }) ∧
    (44 ≤ (src s).len.toNat → literalFields (src s).mem →
      ∃ h, headerOf h (src s).mem ∧ exec i s = .next { put s h with status := okStatus s })

/-- RDC from a source into a header register set and a payload buffer: its word, and all three outcomes with the whole
next state. The payload is the min(dsize, SxLEN - 44) bytes from offset 44 on. -/
def readsContainer (w : Byte) (i : Instr) (src : State → Buffer) (put : State → HdrRegs → Buffer → State) : Prop :=
  decode w = .ok i ∧ ∀ s : State,
    ((src s).len.toNat < 44 → exec i s = .next { s with status := 0x11#5 }) ∧
    (44 ≤ (src s).len.toNat → ¬literalFields (src s).mem → exec i s = .next { s with status := 0x12#5 }) ∧
    (44 ≤ (src s).len.toNat → literalFields (src s).mem →
      ∃ h p, headerOf h (src s).mem ∧
        p.len.toNat = min (word (src s).mem 40).toNat ((src s).len.toNat - 44) ∧
        (∀ a, a < p.len.toNat → p.mem.read a = (src s).mem.read (44 + a)) ∧ endsAt p.mem p.len.toNat ∧
        exec i s = .next { put s h p with status := okStatus s })

/-- The three computed fields fit their widths (40_headercodec.md R123). -/
def fits (ch rate bps ds : Nat) : Prop :=
  rate * ch * bps / 8 < 2 ^ 32 ∧ ch * bps / 8 < 2 ^ 16 ∧ 36 + ds < 2 ^ 32

/-- The 44 bytes of a header, field by field (20_memory.md R66; 40_headercodec.md R123). -/
def isHeader (m : Memory) (ch : BitVec 16) (rate : BitVec 32) (bps : BitVec 16) (ds : BitVec 32) : Prop :=
  tags m ∧ (word m 4).toNat = 36 + ds.toNat ∧ word m 16 = 16 ∧ half m 20 = 1 ∧ half m 22 = ch ∧ word m 24 = rate ∧
    (word m 28).toNat = rate.toNat * ch.toNat * bps.toNat / 8 ∧ (half m 32).toNat = ch.toNat * bps.toNat / 8 ∧
    half m 34 = bps ∧ word m 40 = ds ∧ endsAt m 44

/-- BUILD and WRC with a data size: the word, and both outcomes with the whole next state. -/
def buildsHeader (w : Byte) (i : Instr) (ds : State → BitVec 32) : Prop :=
  decode w = .ok i ∧ ∀ s : State,
    (¬fits s.och.toNat s.orate.toNat s.obps.toNat (ds s).toNat → exec i s = .next { s with status := 0x16#5 }) ∧
    (fits s.och.toNat s.orate.toNat s.obps.toNat (ds s).toNat →
      ∃ m, isHeader m s.och s.orate s.obps (ds s) ∧ exec i s = .next { s with oh := m, status := okStatus s })

/-- The format of the stereo 16 transformers. -/
def stereo16 (s : State) : Prop := s.ha.ch = 2 ∧ s.ha.bps = 16

/-- A DMX command: its word, and both outcomes with the whole next state. Each output sample, as a signed number, is f
of the left and the right sample of its frame; trailing bytes are ignored. -/
def downmixes (w : Byte) (i : Instr) (f : Int → Int → Int) : Prop :=
  decode w = .ok i ∧ ∀ s : State,
    (¬stereo16 s → exec i s = .next { s with status := 0x13#5 }) ∧
    (stereo16 s → ∃ p, p.len.toNat = 2 * (s.pa.len.toNat / 4) ∧ endsAt p.mem p.len.toNat ∧
      (∀ k, k < s.pa.len.toNat / 4 →
        (half p.mem (2 * k)).toInt = f (half s.pa.mem (4 * k)).toInt (half s.pa.mem (4 * k + 2)).toInt) ∧
      exec i s = .next { s with po := p, status := okStatus s })

/-- The six conditions of MRG (42_merge.md R171). -/
def mergeInputs (s : State) : Prop :=
  s.ha.ch = 1 ∧ s.hb.ch = 1 ∧ s.ha.bps = 16 ∧ s.hb.bps = 16 ∧ s.ha.rate = s.hb.rate ∧ s.pa.len = s.pb.len

/-- Clamp to the closed range [-32768, 32767]. -/
def toInt16Range (x : Int) : Int := max (-32768) (min 32767 x)

/-- The error codes each command can end with: the row of 60_exceptions.md R201. -/
def errorRow : Instr → List (BitVec 4)
  | .parseA | .parseB | .rdcA | .rdcB => [1, 2]
  | .build | .wrc => [6]
  | .dmxL | .dmxR | .dmxS | .dmxD | .mse => [3]
  | .mrg => [4]
  | .msd => [3, 5]

/-- The registers the host may write (10_state.md R46, R47). -/
def hostWritable : Reg → Prop
  | .cmd | .status | .salen | .sblen | .palen | .pblen | .polen => False
  | _ => True

/-- The two states agree on everything but register numbers the host can write. -/
def sameElsewhere (s t : State) : Prop :=
  t.sa = s.sa ∧ t.sb = s.sb ∧ t.pa = s.pa ∧ t.pb = s.pb ∧ t.po = s.po ∧ t.ha.raw = s.ha.raw ∧ t.hb.raw = s.hb.raw ∧
    t.oh = s.oh ∧ t.status = s.status ∧ t.pending = s.pending ∧ t.pos = s.pos ∧ t.received = s.received

/-- The two states agree on what errors are detected from: lengths, header and parameter registers, and the first 44
bytes of the source buffers (60_exceptions.md R205). -/
def sameTests (s t : State) : Prop :=
  t.sa.len = s.sa.len ∧ t.sb.len = s.sb.len ∧ t.pa.len = s.pa.len ∧ t.pb.len = s.pb.len ∧ t.po.len = s.po.len ∧
    (t.ha.ch = s.ha.ch ∧ t.ha.rate = s.ha.rate ∧ t.ha.bps = s.ha.bps) ∧
    (t.hb.ch = s.hb.ch ∧ t.hb.rate = s.hb.rate ∧ t.hb.bps = s.hb.bps) ∧
    (t.och = s.och ∧ t.orate = s.orate ∧ t.obps = s.obps ∧ t.odsize = s.odsize) ∧
    (∀ a, a < 44 → t.sa.mem.read a = s.sa.mem.read a) ∧ (∀ a, a < 44 → t.sb.mem.read a = s.sb.mem.read a)

/-- Host actions that are not a command and not RESET: LOAD, RD, READ, and WR of a register other than CMD. -/
def notACommand : HostAction → Prop
  | .load _ _ | .rd _ | .read _ => True
  | .wr n _ => n ≠ 0
  | .cmd _ | .reset => False

/-- The register numbers the host can read, each with the value of its field (10_state.md R46). -/
def registerMap (s : State) : List (Nat × Nat) :=
  [ (0x01, s.status.toNat), (0x02, s.sa.len.toNat), (0x03, s.sb.len.toNat), (0x04, s.pa.len.toNat),
    (0x05, s.pb.len.toNat), (0x06, s.po.len.toNat),
    (0x08, s.ha.ch.toNat), (0x09, s.ha.rate.toNat), (0x0A, s.ha.bps.toNat), (0x0B, s.ha.dsize.toNat),
    (0x0C, s.hb.ch.toNat), (0x0D, s.hb.rate.toNat), (0x0E, s.hb.bps.toNat), (0x0F, s.hb.dsize.toNat),
    (0x10, s.och.toNat), (0x11, s.orate.toNat), (0x12, s.obps.toNat), (0x13, s.odsize.toNat) ]

/-- The register numbers the host can write, CMD apart, each with its width (10_state.md R45, R46) and the state with
the value in its field. -/
def writableMap (s : State) (v : Nat) : List (Nat × Nat × State) :=
  [ (0x08, 16, { s with ha := { s.ha with ch := BitVec.ofNat 16 v } }),
    (0x09, 32, { s with ha := { s.ha with rate := BitVec.ofNat 32 v } }),
    (0x0A, 16, { s with ha := { s.ha with bps := BitVec.ofNat 16 v } }),
    (0x0B, 32, { s with ha := { s.ha with dsize := BitVec.ofNat 32 v } }),
    (0x0C, 16, { s with hb := { s.hb with ch := BitVec.ofNat 16 v } }),
    (0x0D, 32, { s with hb := { s.hb with rate := BitVec.ofNat 32 v } }),
    (0x0E, 16, { s with hb := { s.hb with bps := BitVec.ofNat 16 v } }),
    (0x0F, 32, { s with hb := { s.hb with dsize := BitVec.ofNat 32 v } }),
    (0x10, 16, { s with och := BitVec.ofNat 16 v }), (0x11, 32, { s with orate := BitVec.ofNat 32 v }),
    (0x12, 16, { s with obps := BitVec.ofNat 16 v }), (0x13, 32, { s with odsize := BitVec.ofNat 32 v }) ]

/-- The bytes at offsets 0 to n - 1. -/
def firstBytes (m : Memory) (n : Nat) : List Byte := (List.range n).map m.read

/-- The buffers the host can read, each with the bytes of its field (10_state.md R33, R34, R35, R47). -/
def bufferMap (s : State) : List (BufId × List Byte) :=
  [ (.sa, firstBytes s.sa.mem s.sa.len.toNat), (.sb, firstBytes s.sb.mem s.sb.len.toNat),
    (.pa, firstBytes s.pa.mem s.pa.len.toNat), (.pb, firstBytes s.pb.mem s.pb.len.toNat),
    (.po, firstBytes s.po.mem s.po.len.toNat), (.oh, firstBytes s.oh 44),
    (.haRaw, firstBytes s.ha.raw 44), (.hbRaw, firstBytes s.hb.raw 44) ]

/-- A buffer holds exactly a byte sequence. -/
def holds (b : Buffer) (bs : List Byte) : Prop :=
  b.len.toNat = bs.length ∧ (∀ a, a < bs.length → b.mem.read a = bs.getD a 0) ∧ endsAt b.mem bs.length

end Sys2Proof.Claims

open Sys2Proof Sys2Proof.Machine Sys2Proof.Claims

/-! ## Reset -/

/-- 10_state.md R48: what reset leaves. -/
def Obligations.ResetLeavesEveryValueOfR48 : Prop :=
  (State.reset.sa.len = 0 ∧ State.reset.sb.len = 0 ∧ State.reset.pa.len = 0 ∧ State.reset.pb.len = 0 ∧
    State.reset.po.len = 0) ∧
  (State.reset.sa.bytes = [] ∧ State.reset.sb.bytes = [] ∧ State.reset.pa.bytes = [] ∧ State.reset.pb.bytes = [] ∧
    State.reset.po.bytes = []) ∧
  (State.reset.ha.ch = 0 ∧ State.reset.ha.rate = 0 ∧ State.reset.ha.bps = 0 ∧ State.reset.ha.dsize = 0) ∧
  (State.reset.hb.ch = 0 ∧ State.reset.hb.rate = 0 ∧ State.reset.hb.bps = 0 ∧ State.reset.hb.dsize = 0) ∧
  (State.reset.och = 0 ∧ State.reset.orate = 0 ∧ State.reset.obps = 0 ∧ State.reset.odsize = 0) ∧
  (∀ x, x = BufId.oh ∨ x = .haRaw ∨ x = .hbRaw → State.reset.readBuf x = List.replicate 44 0) ∧
  State.reset.status = 0

/-- 10_state.md R49, which the spec marks as derived from R48 and the command rules: each command straight after
reset. -/
def Obligations.CommandsStraightAfterReset : Prop :=
  (∀ i, i = Instr.dmxL ∨ i = .dmxR ∨ i = .dmxS ∨ i = .dmxD ∨ i = .mse ∨ i = .msd →
    exec i State.reset = .next { State.reset with status := 0x13#5 }) ∧
  exec .mrg State.reset = .next { State.reset with status := 0x14#5 } ∧
  (∀ i, i = Instr.parseA ∨ i = .parseB ∨ i = .rdcA ∨ i = .rdcB →
    exec i State.reset = .next { State.reset with status := 0x11#5 }) ∧
  (∀ i, i = Instr.build ∨ i = .wrc →
    ∃ m, isHeader m 0 0 0 0 ∧ exec i State.reset = .next { State.reset with oh := m, status := 0 })

/-- The host's RESET from any state (70_reset_and_hazards.md R230). That the host's own script, position and record stay
is the model's choice (log entry 12). -/
def Obligations.ResetActionRestoresTheResetState : Prop :=
  ∀ s : State, perform .reset s
    = .next { State.reset with pending := s.pending, pos := s.pos, received := s.received }

/-! ## Encoding, and how a command reaches its meaning -/

/-- The words of 30_encoding.md R92, written out, decode to their commands. -/
def Obligations.DecodeReadsTheWordsOfR92 : Prop :=
  decode 0b00000001#8 = .ok .parseA ∧ decode 0b00010001#8 = .ok .parseB ∧ decode 0b00000010#8 = .ok .build ∧
  decode 0b00000011#8 = .ok .rdcA ∧ decode 0b00010011#8 = .ok .rdcB ∧ decode 0b00000100#8 = .ok .wrc ∧
  decode 0b00000101#8 = .ok .dmxL ∧ decode 0b00010101#8 = .ok .dmxR ∧ decode 0b00100101#8 = .ok .dmxS ∧
  decode 0b00110101#8 = .ok .dmxD ∧ decode 0b00000110#8 = .ok .mrg ∧ decode 0b00000111#8 = .ok .mse ∧
  decode 0b00001000#8 = .ok .msd

/-- Decoding and encoding agree in both directions. -/
def Obligations.DecodeAndEncodeAgree : Prop :=
  (∀ i : Instr, i.wf = true → decode (encode i) = .ok i) ∧ (∀ (w : Byte) (i : Instr), decode w = .ok i → encode i = w)

/-- 30_encoding.md R97: which words are illegal, how many they are, and what executing one does. -/
def Obligations.IllegalWordsAreThoseOfR97 : Prop :=
  (∀ w : Byte, (∀ i, decode w ≠ .ok i) ↔
    (w.toNat / 64 ≠ 0 ∨ w.toNat % 16 = 0 ∨ 9 ≤ w.toNat % 16 ∨
      ((w.toNat % 16 = 2 ∨ w.toNat % 16 = 4 ∨ w.toNat % 16 = 6 ∨ w.toNat % 16 = 7 ∨ w.toNat % 16 = 8) ∧
        w.toNat / 16 % 4 ≠ 0) ∨
      ((w.toNat % 16 = 1 ∨ w.toNat % 16 = 3) ∧ 2 ≤ w.toNat / 16 % 4))) ∧
  ((List.range 256).filter fun w => !(decode (BitVec.ofNat 8 w)).toBool).length = 243 ∧
  (∀ (w : Byte) (s : State), (∀ i, decode w ≠ .ok i) → issueCommand w s = .next { s with status := 0x17#5 })

/-- A step whose next line is a legal command word is that command's meaning, on the state with the line taken and the
position advanced (10_state.md R41, R44; the script and the position are the model's, log entry 1). -/
def Obligations.StepRunsTheDecodedCommand : Prop :=
  ∀ (s : State) (w : Byte) (rest : List HostLine) (i : Instr),
    s.pending = .act (.cmd w) :: rest → decode w = .ok i → i.wf = true →
      step s = exec i { s with pending := rest, pos := s.pos + 1 }

/-- A step whose next line is an illegal command word changes STATUS only, beside taking the line (30_encoding.md R97;
the script is the model's, log entry 1). -/
def Obligations.StepOnAnIllegalWordRaisesCodeSeven : Prop :=
  ∀ (s : State) (w : Byte) (rest : List HostLine),
    s.pending = .act (.cmd w) :: rest → (∀ i, decode w ≠ .ok i) →
      step s = .next { s with pending := rest, pos := s.pos + 1, status := 0x17#5 }

/-- Every command on every state has a next state: none is refused, none stops the machine. -/
def Obligations.EveryCommandAnswersANextState : Prop :=
  ∀ (i : Instr) (s : State), ∃ t, exec i s = .next t

/-! ## HeaderCodec -/

/-- 40_headercodec.md R121. -/
def Obligations.ParseAFollowsR121 : Prop := parses 0x01#8 .parseA (fun s => s.sa) fun s h => { s with ha := h }

/-- 40_headercodec.md R122. -/
def Obligations.ParseBFollowsR122 : Prop := parses 0x11#8 .parseB (fun s => s.sb) fun s h => { s with hb := h }

/-- 40_headercodec.md R125. -/
def Obligations.RdcAFollowsR125 : Prop :=
  readsContainer 0x03#8 .rdcA (fun s => s.sa) fun s h p => { s with ha := h, pa := p }

/-- 40_headercodec.md R126. -/
def Obligations.RdcBFollowsR126 : Prop :=
  readsContainer 0x13#8 .rdcB (fun s => s.sb) fun s h p => { s with hb := h, pb := p }

/-- 40_headercodec.md R124. -/
def Obligations.BuildFollowsR124 : Prop := buildsHeader 0x02#8 .build fun s => s.odsize

/-- 40_headercodec.md R127. -/
def Obligations.WrcFollowsR127 : Prop := buildsHeader 0x04#8 .wrc fun s => s.po.len

/-- Build then parse is the identity on the four arguments: 40_headercodec.md R128, which the spec marks as derived from
R120 and R123. -/
def Obligations.BuildThenParseIsIdentity : Prop :=
  ∀ (c r b d : Nat) (H : List Byte), c < 2 ^ 16 → r < 2 ^ 32 → b < 2 ^ 16 → d < 2 ^ 32 →
    buildHeader c r b d = .ok H → H.length = 44 ∧ parseHeader H = .ok ⟨c, r, b, d, H⟩

/-- 40_headercodec.md R129, which the spec marks as derived from R120 and R123: a parsed header whose audio format is
not 1, or whose riffSize is not 36 + dataSize, is not reproduced by building from what was parsed; and there are such
headers. -/
def Obligations.ParseThenBuildIsNotIdentity : Prop :=
  (∀ (S H : List Byte) (h : Header), parseHeader S = .ok h →
    (memRead S 4 4 ≠ 36 + h.dsize ∨ memRead S 20 2 ≠ 1) → buildHeader h.ch h.rate h.bps h.dsize = .ok H → H ≠ h.raw) ∧
  (∃ S h H, parseHeader S = .ok h ∧ memRead S 4 4 ≠ 36 + h.dsize ∧ buildHeader h.ch h.rate h.bps h.dsize = .ok H)

/-- A container that WRC has written reads back: RDC.A of `OH ++ PO` gives the parameters and the payload
(10_state.md R34; 40_headercodec.md R125, R127, R128; 20_memory.md R69). -/
def Obligations.WrittenContainerReadsBack : Prop :=
  ∀ s : State, fits s.och.toNat s.orate.toNat s.obps.toNat s.po.len.toNat → s.po.len.toNat ≤ 2147483647 →
    ∃ t u, exec .wrc s = .next t ∧ exec .rdcA { t with sa := Buffer.ofBytes t.outputContainer } = .next u ∧
      u.ha.ch = s.och ∧ u.ha.rate = s.orate ∧ u.ha.bps = s.obps ∧ u.ha.dsize = s.po.len ∧
      u.pa.bytes = s.po.bytes ∧ statusErr u.status = 0

/-! ## Down-mixer -/

/-- 41_downmix.md R151. -/
def Obligations.DmxLeftFollowsR151 : Prop := downmixes 0x05#8 .dmxL fun l _ => l

/-- 41_downmix.md R152. -/
def Obligations.DmxRightFollowsR152 : Prop := downmixes 0x15#8 .dmxR fun _ r => r

/-- 41_downmix.md R153. -/
def Obligations.DmxMidSumFollowsR153 : Prop := downmixes 0x25#8 .dmxS fun l r => Int.fdiv (l + r) 2

/-- 41_downmix.md R154. -/
def Obligations.DmxMidDiffFollowsR154 : Prop := downmixes 0x35#8 .dmxD fun l r => Int.fdiv (l - r) 2

/-- 41_downmix.md R155, which the spec marks as derived from R150 and R14: no clamp is needed. -/
def Obligations.HalvedSumAndDifferenceStayInRange : Prop :=
  (∀ l r : Int, -32768 ≤ l → l ≤ 32767 → -32768 ≤ r → r ≤ 32767 →
    (-65536 ≤ l + r ∧ l + r ≤ 65534) ∧ (-32768 ≤ fdiv2 (l + r) ∧ fdiv2 (l + r) ≤ 32767) ∧
    (-65535 ≤ l - r ∧ l - r ≤ 65535) ∧ (-32768 ≤ fdiv2 (l - r) ∧ fdiv2 (l - r) ≤ 32767) ∧
    clamp16 (fdiv2 (l + r)) = fdiv2 (l + r) ∧ clamp16 (fdiv2 (l - r)) = fdiv2 (l - r) ∧
    s16 (u16 (fdiv2 (l + r))) = fdiv2 (l + r) ∧ s16 (u16 (fdiv2 (l - r))) = fdiv2 (l - r)) ∧
  fdiv2 (-65535) = -32768 ∧ fdiv2 65535 = 32767

/-- 41_downmix.md R156, whose datapath the spec marks as derived from R14: floor rounding is the 17-bit datapath that
drops bit 0 and keeps bits 16..1; truncation toward zero differs from it exactly on the negative odd sums. -/
def Obligations.FloorIsTheSeventeenBitDatapath : Prop :=
  (∀ l r : BitVec 16,
    BitVec.ofNat 16 (u16 (fdiv2 (l.toInt + r.toInt))) = (l.signExtend 17 + r.signExtend 17).extractLsb' 1 16 ∧
    BitVec.ofNat 16 (u16 (fdiv2 (l.toInt - r.toInt))) = (l.signExtend 17 - r.signExtend 17).extractLsb' 1 16) ∧
  (∀ x : Int, fdiv2 x ≠ Int.tdiv x 2 ↔ x < 0 ∧ x % 2 = 1) ∧ fdiv2 (-3) = -2

/-- 41_downmix.md R157, which the spec marks as derived from R150 and R170: a channel of a merged stream is recovered;
the last byte of an odd length is not. -/
def Obligations.DownmixRecoversMergedChannels : Prop :=
  ∀ X Y : List Byte, X.length = Y.length →
    (X.length % 2 = 0 → downmix .left (merge X Y) = X ∧ downmix .right (merge X Y) = Y) ∧
    (X.length % 2 = 1 → downmix .left (merge X Y) = X.dropLast ∧ downmix .right (merge X Y) = Y.dropLast)

/-! ## Up-mixer -/

/-- 42_merge.md R170: the interleaver pairs by index up to the shorter length. -/
def Obligations.MergeInterleavesUpToTheShorter : Prop :=
  ∀ X Y : List Byte,
    (merge X Y).length = 4 * min (X.length / 2) (Y.length / 2) ∧
    ∀ i, i < min (X.length / 2) (Y.length / 2) →
      (merge X Y)[4 * i]? = X[2 * i]? ∧ (merge X Y)[4 * i + 1]? = X[2 * i + 1]? ∧
      (merge X Y)[4 * i + 2]? = Y[2 * i]? ∧ (merge X Y)[4 * i + 3]? = Y[2 * i + 1]?

/-- 42_merge.md R171. The bound on PALEN holds in every state with the invariant (`InvariantBoundsEveryLength`). -/
def Obligations.MrgFollowsR171 : Prop :=
  decode 0x06#8 = .ok .mrg ∧ ∀ s : State,
    (¬mergeInputs s → exec .mrg s = .next { s with status := 0x14#5 }) ∧
    (mergeInputs s → s.pa.len.toNat ≤ 2147483647 →
      ∃ p, p.len.toNat = 4 * (s.pa.len.toNat / 2) ∧ endsAt p.mem p.len.toNat ∧
        (∀ k, k < s.pa.len.toNat / 2 →
          half p.mem (4 * k) = half s.pa.mem (2 * k) ∧ half p.mem (4 * k + 2) = half s.pb.mem (2 * k)) ∧
        exec .mrg s = .next { s with po := p, status := okStatus s })

/-! ## Mid-side encoder and decoder -/

/-- 43_midside_encode.md R182: in each coded sample the high half is mid and the low half is side. -/
def Obligations.MseFollowsR182 : Prop :=
  decode 0x07#8 = .ok .mse ∧ ∀ s : State,
    (¬stereo16 s → exec .mse s = .next { s with status := 0x13#5 }) ∧
    (stereo16 s → ∃ p, p.len.toNat = 4 * (s.pa.len.toNat / 4) ∧ endsAt p.mem p.len.toNat ∧
      (∀ k, k < s.pa.len.toNat / 4 →
        (half p.mem (4 * k + 2)).toInt
            = Int.fdiv ((half s.pa.mem (4 * k)).toInt + (half s.pa.mem (4 * k + 2)).toInt) 2 ∧
        (half p.mem (4 * k)).toInt
            = Int.fdiv ((half s.pa.mem (4 * k)).toInt - (half s.pa.mem (4 * k + 2)).toInt) 2) ∧
      exec .mse s = .next { s with po := p, status := okStatus s })

/-- 43_midside_encode.md R183, which the spec marks as derived from R180: what the packing keeps and what it loses. -/
def Obligations.PackingLosesTheParityBit : Prop :=
  ∀ l r : Int, -32768 ≤ l → l ≤ 32767 → -32768 ≤ r → r ≤ 32767 →
    (l + r) % 2 = (l - r) % 2 ∧
    ((l + r) % 2 = 0 → fdiv2 (l + r) + fdiv2 (l - r) = l ∧ fdiv2 (l + r) - fdiv2 (l - r) = r) ∧
    ((l + r) % 2 = 1 → fdiv2 (l + r) + fdiv2 (l - r) = l - 1 ∧ fdiv2 (l + r) - fdiv2 (l - r) = r ∧
      encodeFrame (l, r) = encodeFrame (l - 1, r))

/-- 44_midside_decode.md R192: mid is the high half read unsigned, side the low half read signed, and each output is
clamped; the format is tested before the length. -/
def Obligations.MsdFollowsR192 : Prop :=
  decode 0x08#8 = .ok .msd ∧ ∀ s : State,
    (¬(s.ha.ch = 1 ∧ s.ha.bps = 32) → exec .msd s = .next { s with status := 0x13#5 }) ∧
    (s.ha.ch = 1 ∧ s.ha.bps = 32 → s.pa.len = 0 → exec .msd s = .next { s with status := 0x15#5 }) ∧
    (s.ha.ch = 1 ∧ s.ha.bps = 32 → s.pa.len ≠ 0 →
      ∃ p, p.len.toNat = 4 * (s.pa.len.toNat / 4) ∧ endsAt p.mem p.len.toNat ∧
        (∀ k, k < s.pa.len.toNat / 4 →
          (half p.mem (4 * k)).toInt
            = toInt16Range (((half s.pa.mem (4 * k + 2)).toNat : Int) + (half s.pa.mem (4 * k)).toInt) ∧
          (half p.mem (4 * k + 2)).toInt
            = toInt16Range (((half s.pa.mem (4 * k + 2)).toNat : Int) - (half s.pa.mem (4 * k)).toInt)) ∧
        exec .msd s = .next { s with po := p, status := okStatus s })

/-- 44_midside_decode.md R191, which the spec marks as derived from R190: the ranges before the clamp, and when the
clamp acts. -/
def Obligations.DecoderClampsOnlyUpward : Prop :=
  decodeSample 0x00008000 = (-32768, 32767) ∧ decodeSample 0x80007FFF = (32767, 1) ∧ ∀ mid side : BitVec 16,
    (-32768 ≤ (mid.toNat : Int) + side.toInt ∧ (mid.toNat : Int) + side.toInt ≤ 98302) ∧
    (-32767 ≤ (mid.toNat : Int) - side.toInt ∧ (mid.toNat : Int) - side.toInt ≤ 98303) ∧
    decodeSample (mid ++ side).toNat
      = (min 32767 ((mid.toNat : Int) + side.toInt), min 32767 ((mid.toNat : Int) - side.toInt)) ∧
    ((mid ++ side).getMsbD 0 = true → 32767 < (mid.toNat : Int) + side.toInt ∨ 32767 < (mid.toNat : Int) - side.toInt)

/-- 44_midside_decode.md R193, which the spec marks as derived from R180, R181, R183 and R190: a stereo payload that MSE
has encoded and MSD has decoded, frame by frame. It is the same exactly on the frames with an even, non-negative sum. -/
def Obligations.EncodeThenDecodeIsTheThreeCasesOfR193 : Prop :=
  ∀ s : State, stereo16 s → 4 ≤ s.pa.len.toNat →
    ∃ t u, exec .mse s = .next t ∧
      exec .msd { t with pa := t.po, ha := { t.ha with ch := 1, bps := 32 } } = .next u ∧
      u.po.len.toNat = 4 * (s.pa.len.toNat / 4) ∧
      ∀ k, k < s.pa.len.toNat / 4 →
        let l := (half s.pa.mem (4 * k)).toInt
        let r := (half s.pa.mem (4 * k + 2)).toInt
        let l' := (half u.po.mem (4 * k)).toInt
        let r' := (half u.po.mem (4 * k + 2)).toInt
        (0 ≤ l + r → (l + r) % 2 = 0 → l' = l ∧ r' = r) ∧
        (0 ≤ l + r → (l + r) % 2 = 1 → l' = l - 1 ∧ r' = r) ∧
        (l + r < 0 → l' = 32767 ∧ r' = 32767) ∧
        ((l' = l ∧ r' = r) ↔ (0 ≤ l + r ∧ (l + r) % 2 = 0))

/-- 20_memory.md R75: output frame k of a transformer depends on input frame k only, and of a merge on sample k of each
input. -/
def Obligations.OutputFramesDependOnTheirInputFrameOnly : Prop :=
  (∀ (X X' Y Y' : List Byte) (k : Nat), k < min (X.length / 2) (Y.length / 2) → k < min (X'.length / 2) (Y'.length / 2) →
    (∀ j, j < 2 → X[2 * k + j]? = X'[2 * k + j]? ∧ Y[2 * k + j]? = Y'[2 * k + j]?) →
    ∀ j, j < 4 → (merge X Y)[4 * k + j]? = (merge X' Y')[4 * k + j]?) ∧
  ∀ (P P' : List Byte) (k : Nat), k < P.length / 4 → k < P'.length / 4 →
    (∀ j, j < 4 → P[4 * k + j]? = P'[4 * k + j]?) →
    (∀ sel j, j < 2 → (downmix sel P)[2 * k + j]? = (downmix sel P')[2 * k + j]?) ∧
    (∀ j, j < 4 → (midSideEncode P)[4 * k + j]? = (midSideEncode P')[4 * k + j]?) ∧
    (∀ j, j < 4 → (midSideDecode P)[4 * k + j]? = (midSideDecode P')[4 * k + j]?)

/-! ## Errors and STATUS -/

/-- 60_exceptions.md R204: a command word that ends in an error writes its code and STICKY, and nothing else. -/
def Obligations.ErrorsChangeStatusOnly : Prop :=
  ∀ (w : Byte) (s t : State), issueCommand w s = .next t → statusErr t.status ≠ 0 →
    t = { s with status := t.status } ∧ statusSticky t.status = 1 ∧
      ∃ e : ErrKind, statusErr t.status = BitVec.ofNat 4 e.code

/-- 60_exceptions.md R201, which the spec marks as derived from the command rules and R97: each command ends in
success or in an error of its row, each error of its row happens, and code 7 is the outcome of the words that decode
to no command, and of no other. -/
def Obligations.ErrorMatrixIsR201 : Prop :=
  (∀ (i : Instr) (s t : State), exec i s = .next t → statusErr t.status = 0 ∨ statusErr t.status ∈ errorRow i) ∧
  (∀ (i : Instr) (k : BitVec 4), k ∈ errorRow i → ∃ s t, exec i s = .next t ∧ statusErr t.status = k) ∧
  (∀ (w : Byte) (s t : State), issueCommand w s = .next t → (statusErr t.status = 7 ↔ ∀ i, decode w ≠ .ok i))

/-- 10_state.md R39: every command writes ERR, a success leaves STICKY, a failure sets it, codes 8 to 15 never occur,
and LOAD, WR, RD, READ never change STATUS. -/
def Obligations.StatusIsWrittenAsR39Says : Prop :=
  (∀ (w : Byte) (s t : State), issueCommand w s = .next t →
    (statusErr t.status).toNat ≤ 7 ∧
    (statusErr t.status = 0 → statusSticky t.status = statusSticky s.status) ∧
    (statusErr t.status ≠ 0 → statusSticky t.status = 1)) ∧
  (∀ (a : HostAction) (s t : State), notACommand a → perform a s = .next t → t.status = s.status)

/-- 10_state.md R39, R43: no command reads STATUS. With another STATUS before it, a command leaves the same state but
for STICKY. -/
def Obligations.NoCommandReadsStatus : Prop :=
  ∀ (w : Byte) (s t : State) (st : BitVec 5), issueCommand w s = .next t →
    ∃ t', issueCommand w { s with status := st } = .next t' ∧ t' = { t with status := t'.status } ∧
      statusErr t'.status = statusErr t.status

/-- 60_exceptions.md R206, a sentence the spec marks as derived from R204: repeating a failed command without changing
its inputs fails again with the same code. -/
def Obligations.RepeatedFailureRepeats : Prop :=
  ∀ (w : Byte) (s t : State), issueCommand w s = .next t → statusErr t.status ≠ 0 → issueCommand w t = .next t

/-- 60_exceptions.md R205, which the spec marks as derived from the command rules: no error depends on a payload byte.
-/
def Obligations.ErrorsDoNotDependOnPayloadBytes : Prop :=
  ∀ (w : Byte) (s s' t t' : State), sameTests s s' → issueCommand w s = .next t → issueCommand w s' = .next t' →
    statusErr t.status = statusErr t'.status

/-- Only RESET clears STICKY, whatever the step (10_state.md R39; 60_exceptions.md R206). -/
def Obligations.OnlyResetClearsSticky : Prop :=
  ∀ s t : State, step s = .next t → statusSticky s.status = 1 → s.pending.head? ≠ some (.act .reset) →
    statusSticky t.status = 1

/-! ## What commands leave alone, and the invariant -/

/-- Which command writes which piece of state: everything else keeps its value (10_state.md R31, R34, R36, R38;
20_memory.md R65). -/
def Obligations.CommandsWriteOnlyTheirOwnState : Prop :=
  ∀ (i : Instr) (s t : State), exec i s = .next t →
    t.sa = s.sa ∧ t.sb = s.sb ∧
    t.och = s.och ∧ t.orate = s.orate ∧ t.obps = s.obps ∧ t.odsize = s.odsize ∧
    t.pending = s.pending ∧ t.pos = s.pos ∧ t.received = s.received ∧
    (i ≠ .parseA → i ≠ .rdcA → t.ha = s.ha) ∧ (i ≠ .parseB → i ≠ .rdcB → t.hb = s.hb) ∧
    (i ≠ .rdcA → t.pa = s.pa) ∧ (i ≠ .rdcB → t.pb = s.pb) ∧
    (i ≠ .build → i ≠ .wrc → t.oh = s.oh) ∧
    (i = .parseA ∨ i = .parseB ∨ i = .rdcA ∨ i = .rdcB ∨ i = .build ∨ i = .wrc → t.po = s.po)

/-- The invariant holds at reset. -/
def Obligations.ResetMeetsTheInvariant : Prop := State.reset.Inv

/-- Every step keeps the invariant: buffers canonical and within their capacities, STATUS legal. -/
def Obligations.EveryStepKeepsTheInvariant : Prop :=
  ∀ s t : State, s.Inv → step s = .next t → t.Inv

/-- 10_state.md R31, a sentence the spec marks as derived from R6: with the invariant every length register is at most
its buffer's capacity, which is below 2^32. -/
def Obligations.InvariantBoundsEveryLength : Prop :=
  ∀ s : State, s.Inv →
    s.sa.len.toNat ≤ 44 + Config.CAP ∧ s.sb.len.toNat ≤ 44 + Config.CAP ∧ s.pa.len.toNat ≤ Config.CAP ∧
    s.pb.len.toNat ≤ Config.CAP ∧ s.po.len.toNat ≤ 2 * Config.CAP ∧ Config.CAP ≤ 2147483647 ∧ 2 * Config.CAP < 2 ^ 32

/-! ## The host -/

/-- LOAD replaces the whole content and the length of an input buffer, and READ of it then gives exactly those bytes
(10_state.md R33, R47); past the capacity, and into PO, OH, HA.RAW or HB.RAW, it is
refused (00_scope.md R9). Which reason a refusal names, and that the buffer's comes before the length's, is the model's
choice (log entry 10). -/
def Obligations.LoadReplacesTheWholeBuffer : Prop :=
  ∀ (s : State) (bs : List Byte),
    (∀ x, x = BufId.sa ∨ x = .sb ∨ x = .pa ∨ x = .pb →
      (bs.length ≤ bufCapacity x → ∃ t, perform (.load x bs) s = .next t ∧ t.readBuf x = bs ∧
        (∀ y, y ≠ x → t.readBuf y = s.readBuf y) ∧ t.status = s.status ∧
        (∀ r, hostWritable r → t.readReg r = s.readReg r)) ∧
      (bufCapacity x < bs.length → perform (.load x bs) s = .refused (.loadTooLong x))) ∧
    (∀ x, x = BufId.po ∨ x = .oh ∨ x = .haRaw ∨ x = .hbRaw → perform (.load x bs) s = .refused (.notLoadable x))

/-- A writable register holds exactly the value last written, and a WR changes that one register only
(10_state.md R36, R46). -/
def Obligations.WriteThenReadGivesTheValue : Prop :=
  ∀ (s : State) (n v : Nat) (r : Reg), regOfNumber n = some r → hostWritable r → v < 2 ^ regWidth r →
    ∃ t, perform (.wr n (.lit v)) s = .next t ∧ t.readReg r = some v ∧
      (∀ r', r' ≠ r → t.readReg r' = s.readReg r') ∧ sameElsewhere s t

/-- RD and READ hand the value to the host and change nothing of the block (00_scope.md R9; 20_memory.md R65). -/
def Obligations.ReadsChangeNothingOfTheBlock : Prop :=
  (∀ (s : State) (n v : Nat) (r : Reg), regOfNumber n = some r → s.readReg r = some v →
    perform (.rd n) s = .next { s with received := s.received ++ [.value v] }) ∧
  (∀ (s : State) (x : BufId), perform (.read x) s = .next { s with received := s.received ++ [.content (s.readBuf x)] })

/-- The refused host accesses of 10_state.md R46, R47 and 00_scope.md R9: reserved numbers, RD of CMD, WR of STATUS
and of the lengths, values wider than the register. Which reason a refusal names, and that the width comes before the
read-only reason, is the model's choice (log entry 10). -/
def Obligations.HostAccessesOutsideTheMapAreRefused : Prop :=
  ∀ s : State,
    (∀ n v, n = 7 ∨ 0x14 ≤ n → perform (.rd n) s = .refused (.reservedRegister n) ∧
      perform (.wr n (.lit v)) s = .refused (.reservedRegister n)) ∧
    perform (.rd 0) s = .refused (.notReadable .cmd) ∧
    (∀ n v, 1 ≤ n → n ≤ 6 → ∃ r, perform (.wr n (.lit v)) s = .refused r) ∧
    (∀ n v r, regOfNumber n = some r → 2 ^ regWidth r ≤ v → perform (.wr n (.lit v)) s = .refused (.valueTooWide r))

/-- A WR of register 0x00 issues the command (10_state.md R46; the model's reading, log entry 8), and a WR whose value
is RD(reg) writes the value that register has at that moment (30_encoding.md R99; the model's reading, log entry 6).
-/
def Obligations.WriteToCmdAndWriteOfAReadValue : Prop :=
  (∀ (s : State) (v : Nat), v < 256 → perform (.wr 0 (.lit v)) s = issueCommand (BitVec.ofNat 8 v) s) ∧
  (∀ (s : State) (n m v : Nat) (r : Reg), regOfNumber m = some r → s.readReg r = some v →
    perform (.wr n (.rd m)) s = perform (.wr n (.lit v)) s)

/-- 10_state.md R44, the model's own bookkeeping (log entry 1): each step takes one line and advances the position by
one whether or not a command failed; the rest of the script stays, but for a STOP-IF-ERR with ERR not 0, which
abandons it (30_encoding.md R100; that it is a line of the script is the model's choice, log entry 7); and with no
line left there is no step (log entry 2). -/
def Obligations.EveryStepAdvancesThePosition : Prop :=
  (∀ s t : State, step s = .next t → t.pos = s.pos + 1 ∧ ∃ l rest, s.pending = l :: rest ∧
    t.pending = if l = .stopIfErr ∧ statusErr s.status ≠ 0 then [] else rest) ∧
  (∀ s : State, s.pending = [] → step s = .refused .noHostAction)

/-- A step carries out the next line of the script, whatever it is, on the state with the line taken and the position
advanced (20_memory.md R71, R72; 10_state.md R44; the script is the model's, log entry 1): a host action is `perform`,
of which CMD is the command port and a legal word there its command (10_state.md R41); STOP-IF-ERR changes nothing of
the block and abandons the rest when ERR is not 0 (30_encoding.md R100; log entry 7). -/
def Obligations.StepCarriesOutTheNextLine : Prop :=
  (∀ (s : State) (a : HostAction) (rest : List HostLine), s.pending = .act a :: rest →
    step s = perform a { s with pending := rest, pos := s.pos + 1 }) ∧
  (∀ (s : State) (rest : List HostLine), s.pending = .stopIfErr :: rest →
    step s = .next { s with pending := if statusErr s.status = 0 then rest else [], pos := s.pos + 1 }) ∧
  (∀ (w : Byte) (s : State), perform (.cmd w) s = issueCommand w s) ∧
  (∀ (w : Byte) (i : Instr) (s : State), decode w = .ok i → issueCommand w s = exec i s)

/-- The register map of 10_state.md R46, read: RD of each number hands the host the value of its own field, and RD of
any other number is refused (R41, R46). The record of what the host has read is the model's (log entry 5). -/
def Obligations.EachRegisterNumberReadsItsField : Prop :=
  ∀ (s : State) (n : Nat),
    (∀ v, (n, v) ∈ registerMap s → perform (.rd n) s = .next { s with received := s.received ++ [.value v] }) ∧
    ((∀ v, (n, v) ∉ registerMap s) → ∃ r, perform (.rd n) s = .refused r)

/-- The register map of 10_state.md R46, written: WR to each host-writable number other than CMD sets its own field to
the value and changes nothing else (R36, R38, R46), and WR to any other number but CMD is refused. -/
def Obligations.EachRegisterNumberWritesItsField : Prop :=
  ∀ (s : State) (n v : Nat),
    (∀ k t, (n, k, t) ∈ writableMap s v → v < 2 ^ k → perform (.wr n (.lit v)) s = .next t) ∧
    (n ≠ 0 → (∀ k t, (n, k, t) ∉ writableMap s v) → ∃ r, perform (.wr n (.lit v)) s = .refused r)

/-- READ of each of the eight buffers hands the host the bytes of its own field, and LOAD of each of the four input
buffers makes its own field exactly the loaded bytes and changes nothing else (10_state.md R31, R33, R47). The record of
what the host has read is the model's (log entry 5). -/
def Obligations.EachBufferIsReadAndLoadedInItsField : Prop :=
  (∀ (s : State) (x : BufId) (bs : List Byte), (x, bs) ∈ bufferMap s →
    perform (.read x) s = .next { s with received := s.received ++ [.content bs] }) ∧
  (∀ (s : State) (bs : List Byte), bs.length ≤ 44 + Config.CAP →
    (∃ b, holds b bs ∧ perform (.load .sa bs) s = .next { s with sa := b }) ∧
    (∃ b, holds b bs ∧ perform (.load .sb bs) s = .next { s with sb := b })) ∧
  (∀ (s : State) (bs : List Byte), bs.length ≤ Config.CAP →
    (∃ b, holds b bs ∧ perform (.load .pa bs) s = .next { s with pa := b }) ∧
    (∃ b, holds b bs ∧ perform (.load .pb bs) s = .next { s with pb := b }))
end

