-- ==== Sys2Proof/Laws/Memory.lean ====
section
/-!
SUPPORT. The laws of memory: replacing a buffer by a byte sequence gives exactly that sequence, in canonical form.
-/

namespace Sys2Proof.Machine

theorem Memory.read_nil (a : Nat) : Memory.read [] a = Memory.unlisted := rfl

theorem Memory.read_cons (k : Nat) (b : Byte) (m : Memory) (a : Nat) :
    Memory.read ((k, b) :: m) a = if k = a then b else Memory.read m a := by
  by_cases h : k = a
  · simp [Memory.read, h]
  · simp [Memory.read, h]

/-- Offset a of a byte sequence laid out from k on reads as byte a - k of the sequence. -/
theorem Memory.read_ofBytesFrom (bs : List Byte) (k a : Nat) :
    Memory.read (Memory.ofBytesFrom k bs) a = if k ≤ a then bs.getD (a - k) Memory.unlisted else Memory.unlisted := by
  induction bs generalizing k with
  | nil => simp [Memory.ofBytesFrom, Memory.read_nil]
  | cons b bs ih =>
    have tail : ∀ h : k ≠ a, (if k + 1 ≤ a then bs.getD (a - (k + 1)) Memory.unlisted else Memory.unlisted)
        = if k ≤ a then (b :: bs).getD (a - k) Memory.unlisted else Memory.unlisted := by
      intro h
      by_cases hk : k + 1 ≤ a
      · have e : a - k = (a - (k + 1)) + 1 := by omega
        rw [if_pos hk, if_pos (by omega), e, List.getD_cons_succ]
      · rw [if_neg hk, if_neg (by omega)]
    unfold Memory.ofBytesFrom
    split
    · next hb =>
      rw [ih]
      by_cases h : k = a
      · subst h; simp [hb]
      · exact tail h
    · rw [Memory.read_cons, ih]
      by_cases h : k = a
      · subst h; simp
      · rw [if_neg h]; exact tail h

@[simp] theorem Memory.read_ofBytes (bs : List Byte) (a : Nat) :
    Memory.read (Memory.ofBytes bs) a = bs.getD a Memory.unlisted := by
  simp [Memory.ofBytes, Memory.read_ofBytesFrom]

@[simp] theorem Memory.bytes_length (m : Memory) (n : Nat) : (m.bytes n).length = n := by simp [Memory.bytes]

theorem Memory.getD_bytes (m : Memory) (n a : Nat) (h : a < n) (d : Byte) : (m.bytes n).getD a d = m.read a := by
  simp [Memory.bytes, List.getD, h]

@[simp] theorem Memory.bytes_ofBytes (bs : List Byte) : (Memory.ofBytes bs).bytes bs.length = bs := by
  apply List.ext_getElem
  · simp
  · intro i h1 h2
    simp [Memory.bytes, List.getD, h2]

/-- Laying out a byte sequence keeps the canonical form. -/
theorem Memory.wfFrom_ofBytesFrom (bs : List Byte) (j k n : Nat) (hj : j ≤ k) (hn : k + bs.length ≤ n) :
    Memory.wfFrom j n (Memory.ofBytesFrom k bs) = true := by
  induction bs generalizing j k with
  | nil => rfl
  | cons b bs ih =>
    simp only [List.length_cons] at hn
    unfold Memory.ofBytesFrom
    split
    · exact ih j (k + 1) (by omega) (by omega)
    · next hb =>
      have hk : k < n := by omega
      simp [Memory.wfFrom, hj, hk, hb, ih (k + 1) (k + 1) (Nat.le_refl _) (by omega)]

theorem Memory.wf_ofBytes (bs : List Byte) (n : Nat) (h : bs.length ≤ n) : (Memory.ofBytes bs).wf n = true :=
  Memory.wfFrom_ofBytesFrom bs 0 0 n (Nat.le_refl _) (by omega)

theorem Memory.wf_nil (n : Nat) : Memory.wf n [] = true := rfl

theorem Memory.read_below (m : Memory) (k n a : Nat) (h : m.wfFrom k n = true) (ha : a < k) :
    m.read a = Memory.unlisted := by
  induction m generalizing k with
  | nil => rfl
  | cons c m ih =>
    simp only [Memory.wfFrom, Bool.and_eq_true, decide_eq_true_eq] at h
    rw [show c = (c.1, c.2) from rfl, Memory.read_cons, if_neg (by omega)]
    exact ih _ h.2 (by omega)

/-- A canonical memory has no byte but the unlisted one at or beyond its bound. -/
theorem Memory.read_beyond (m : Memory) (k n a : Nat) (h : m.wfFrom k n = true) (ha : n ≤ a) :
    m.read a = Memory.unlisted := by
  induction m generalizing k with
  | nil => rfl
  | cons c m ih =>
    simp only [Memory.wfFrom, Bool.and_eq_true, decide_eq_true_eq] at h
    rw [show c = (c.1, c.2) from rfl, Memory.read_cons, if_neg (by omega)]
    exact ih _ h.2

/-- Equal canonical memories are equal data. -/
theorem Memory.ext_of_wfFrom (m m' : Memory) (k n : Nat) (h : m.wfFrom k n = true) (h' : m'.wfFrom k n = true)
    (e : ∀ a, m.read a = m'.read a) : m = m' := by
  induction m generalizing m' k with
  | nil =>
    cases m' with
    | nil => rfl
    | cons c m' =>
      simp only [Memory.wfFrom, Bool.and_eq_true, bne_iff_ne] at h'
      have := e c.1
      rw [show c = (c.1, c.2) from rfl, Memory.read_cons, if_pos rfl, Memory.read_nil] at this
      exact absurd this.symm h'.1.2
  | cons c m ih =>
    simp only [Memory.wfFrom, Bool.and_eq_true, decide_eq_true_eq, bne_iff_ne] at h
    have hc := e c.1
    rw [show c = (c.1, c.2) from rfl, Memory.read_cons, if_pos rfl] at hc
    cases m' with
    | nil => exact absurd hc h.1.2
    | cons d m' =>
      simp only [Memory.wfFrom, Bool.and_eq_true, decide_eq_true_eq, bne_iff_ne] at h'
      have hd := e d.1
      rw [show d = (d.1, d.2) from rfl, show c = (c.1, c.2) from rfl, Memory.read_cons, Memory.read_cons,
        if_pos rfl] at hd
      rw [show d = (d.1, d.2) from rfl, Memory.read_cons] at hc
      have key : d.1 = c.1 := by
        rcases Nat.lt_trichotomy d.1 c.1 with lt | eq | gt
        · rw [if_neg (by omega), Memory.read_below m _ _ _ h.2 (by omega)] at hd
          exact absurd hd.symm h'.1.2
        · exact eq
        · rw [if_neg (by omega), Memory.read_below m' _ _ _ h'.2 (by omega)] at hc
          exact absurd hc h.1.2
      rw [if_pos key] at hc
      have hm : m = m' := by
        apply ih m' (c.1 + 1) h.2 (key ▸ h'.2)
        intro a
        by_cases ha : c.1 = a
        · rw [Memory.read_below m _ _ _ h.2 (by omega), Memory.read_below m' _ _ _ h'.2 (by omega)]
        · have := e a
          rw [show c = (c.1, c.2) from rfl, show d = (d.1, d.2) from rfl, Memory.read_cons, Memory.read_cons,
            if_neg ha, if_neg (by omega)] at this
          exact this
      rw [hm, show c = (c.1, c.2) from rfl, show d = (d.1, d.2) from rfl, key, hc]

@[simp] theorem Buffer.bytes_length (x : Buffer) : x.bytes.length = x.len.toNat := by simp [Buffer.bytes]

theorem Buffer.getD_bytes (x : Buffer) (a : Nat) (h : a < x.len.toNat) (d : Byte) :
    x.bytes.getD a d = x.mem.read a := Memory.getD_bytes x.mem x.len.toNat a h d

@[simp] theorem Buffer.ofBytes_mem (bs : List Byte) : (Buffer.ofBytes bs).mem = Memory.ofBytes bs := rfl

theorem Buffer.ofBytes_len (bs : List Byte) (h : bs.length < 2 ^ 32) :
    (Buffer.ofBytes bs).len.toNat = bs.length := by
  simpa [Buffer.ofBytes] using h

/-- A buffer replaced by a byte sequence holds exactly that sequence, when its length fits the length register. -/
theorem Buffer.bytes_ofBytes (bs : List Byte) (h : bs.length < 2 ^ 32) : (Buffer.ofBytes bs).bytes = bs := by
  unfold Buffer.bytes
  rw [Buffer.ofBytes_len bs h, Buffer.ofBytes_mem, Memory.bytes_ofBytes]

/-- Replacing a buffer keeps the canonical form and its bound. -/
theorem Buffer.wf_ofBytes (bs : List Byte) (n : Nat) (h : bs.length ≤ n) (hn : bs.length < 2 ^ 32) :
    (Buffer.ofBytes bs).wf n = true := by
  simp [Buffer.wf, Buffer.ofBytes_len bs hn, Memory.wf_ofBytes bs bs.length (Nat.le_refl _), h]

end Sys2Proof.Machine
end

