-- ==== Sys2Proof/Laws/Operands.lean ====
section
/-!
SUPPORT. The laws of the operand forms: the signedness helpers, little-endian fields, and byte sequences that are built
frame by frame.
-/

namespace Sys2Proof.Machine

theorem s16_range (u : Nat) (h : u < 0x10000) : -32768 ≤ s16 u ∧ s16 u ≤ 32767 := by
  unfold s16; split <;> omega

theorem u16_lt (v : Int) : u16 v < 0x10000 := by unfold u16; omega

theorem s16_u16 (v : Int) (h1 : -32768 ≤ v) (h2 : v ≤ 32767) : s16 (u16 v) = v := by
  unfold s16 u16; split <;> omega

theorem u16_s16 (u : Nat) (h : u < 0x10000) : u16 (s16 u) = u := by
  unfold s16 u16; split <;> omega

theorem u16_nonneg (v : Int) (h1 : 0 ≤ v) (h2 : v ≤ 65535) : (u16 v : Int) = v := by unfold u16; omega

theorem u16_neg (v : Int) (h1 : -32768 ≤ v) (h2 : v < 0) : (u16 v : Int) = v + 65536 := by unfold u16; omega

/-- fdiv2 is the floor of the half. -/
theorem fdiv2_spec (x : Int) : 2 * fdiv2 x ≤ x ∧ x < 2 * fdiv2 x + 2 := by unfold fdiv2; omega

theorem clamp16_low (x : Int) (h : x < -32768) : clamp16 x = -32768 := if_pos h

theorem clamp16_high (x : Int) (h : 32767 ≤ x) : clamp16 x = 32767 := by
  rw [clamp16, if_neg (by omega)]
  by_cases h' : x > 32767
  · exact if_pos h'
  · rw [if_neg h']; omega

/-- The clamp changes nothing inside the int16 range. -/
theorem clamp16_of_range (x : Int) (h1 : -32768 ≤ x) (h2 : x ≤ 32767) : clamp16 x = x := by
  rw [clamp16, if_neg (by omega), if_neg (by omega)]

theorem clamp16_range (x : Int) : -32768 ≤ clamp16 x ∧ clamp16 x ≤ 32767 := by
  by_cases h1 : x < -32768
  · rw [clamp16_low x h1]; decide
  · by_cases h2 : 32767 ≤ x
    · rw [clamp16_high x h2]; decide
    · rw [clamp16_of_range x (by omega) (by omega)]; omega

@[simp] theorem leBytes_length (n v : Nat) : (leBytes n v).length = n := by simp [leBytes]

theorem leBytes_two (v : Nat) : leBytes 2 v = [BitVec.ofNat 8 v, BitVec.ofNat 8 (v / 256)] := by
  simp [leBytes, List.range_succ]

theorem leBytes_four (v : Nat) : leBytes 4 v =
    [BitVec.ofNat 8 v, BitVec.ofNat 8 (v / 256), BitVec.ofNat 8 (v / 65536), BitVec.ofNat 8 (v / 16777216)] := by
  simp [leBytes, List.range_succ]

theorem memRead_two (X : List Byte) (a : Nat) :
    memRead X a 2 = (X.getD a 0).toNat + (X.getD (a + 1) 0).toNat * 256 := by
  simp [memRead, List.range_succ]

theorem sum_range_four (f : Nat → Nat) : ((List.range 4).map f).sum = f 0 + f 1 + f 2 + f 3 := by
  simp [show List.range 4 = [0, 1, 2, 3] from rfl, Nat.add_assoc]

theorem memRead_four (X : List Byte) (a : Nat) :
    memRead X a 4 = (X.getD a 0).toNat + (X.getD (a + 1) 0).toNat * 256 + (X.getD (a + 2) 0).toNat * 65536
      + (X.getD (a + 3) 0).toNat * 16777216 := by
  have h := sum_range_four fun i => (X.getD (a + i) 0).toNat * 256 ^ i
  rw [Nat.pow_zero, Nat.mul_one, Nat.pow_one] at h
  exact h

theorem memRead_two_lt (X : List Byte) (a : Nat) : memRead X a 2 < 0x10000 := by
  rw [memRead_two]
  have h0 := (X.getD a 0).isLt
  have h1 := (X.getD (a + 1) 0).isLt
  omega

theorem memRead_four_lt (X : List Byte) (a : Nat) : memRead X a 4 < 0x100000000 := by
  rw [memRead_four]
  have h0 := (X.getD a 0).isLt
  have h1 := (X.getD (a + 1) 0).isLt
  have h2 := (X.getD (a + 2) 0).isLt
  have h3 := (X.getD (a + 3) 0).isLt
  omega

/-- A 32-bit read is its two 16-bit halves, low half at the lower offset (20_memory.md R63). -/
theorem memRead_four_halves (X : List Byte) (a : Nat) :
    memRead X a 4 = memRead X a 2 + 65536 * memRead X (a + 2) 2 := by
  rw [memRead_four, memRead_two, memRead_two, show a + 2 + 1 = a + 3 from rfl]; omega

theorem stereoFrame_range (P : List Byte) (i : Nat) :
    (-32768 ≤ (stereoFrame P i).1 ∧ (stereoFrame P i).1 ≤ 32767) ∧
      (-32768 ≤ (stereoFrame P i).2 ∧ (stereoFrame P i).2 ≤ 32767) :=
  ⟨s16_range _ (memRead_two_lt P _), s16_range _ (memRead_two_lt P _)⟩

/-- A byte sequence built from n pieces of k bytes has n * k bytes. -/
theorem flatMap_range_length (k n : Nat) (f : Nat → List Byte) (hf : ∀ i, (f i).length = k) :
    ((List.range n).flatMap f).length = n * k := by
  induction n with
  | zero => simp
  | succ n ih => rw [List.range_succ, List.flatMap_append, List.length_append, ih]; simp [hf, Nat.succ_mul]

/-- Byte j of piece i of a byte sequence built from pieces of k bytes. -/
theorem flatMap_range_getD (k n : Nat) (f : Nat → List Byte) (hf : ∀ i, (f i).length = k) (i j : Nat)
    (hi : i < n) (hj : j < k) (d : Byte) : ((List.range n).flatMap f).getD (k * i + j) d = (f i).getD j d := by
  induction n with
  | zero => omega
  | succ n ih =>
    rw [List.range_succ, List.flatMap_append]
    have hl := flatMap_range_length k n f hf
    by_cases h : i < n
    · have hlt : k * i + j < ((List.range n).flatMap f).length := by
        rw [hl, Nat.mul_comm n k]
        calc k * i + j < k * i + k := by omega
          _ = k * (i + 1) := by ring
          _ ≤ k * n := Nat.mul_le_mul_left k h
      rw [List.getD_append _ _ _ _ hlt, ih h]
    · have e : i = n := by omega
      subst e
      rw [List.getD_append_right _ _ _ _ (by rw [hl, Nat.mul_comm]; omega), hl, Nat.mul_comm i k,
        Nat.add_sub_cancel_left]
      simp

/-- The 16-bit value at the start of two stored bytes. -/
theorem memRead_leBytes_two (X : List Byte) (a v : Nat) (hv : v < 0x10000) (h0 : X.getD a 0 = BitVec.ofNat 8 v)
    (h1 : X.getD (a + 1) 0 = BitVec.ofNat 8 (v / 256)) : memRead X a 2 = v := by
  rw [memRead_two, h0, h1]
  simp only [BitVec.toNat_ofNat]
  omega

/-- A piece of a byte sequence put together from pieces. -/
theorem slice_piece (A B C : List Byte) (k n : Nat) (hA : A.length = k) (hB : B.length = n) :
    slice (A ++ B ++ C) k (k + n) = B := by
  subst hA hB
  rw [slice, List.append_assoc, List.drop_left, Nat.add_sub_cancel_left, List.take_left]

theorem getD_piece (A B C : List Byte) (j : Nat) (hj : j < B.length) :
    (A ++ B ++ C).getD (A.length + j) 0 = B.getD j 0 := by
  rw [List.append_assoc, List.getD_append_right _ _ _ _ (by omega), Nat.add_sub_cancel_left,
    List.getD_append _ _ _ _ hj]

/-- A 16-bit field of a byte sequence put together from pieces reads back. -/
theorem memRead_piece_two (A C : List Byte) (k v : Nat) (hA : A.length = k) (hv : v < 65536) :
    memRead (A ++ leBytes 2 v ++ C) k 2 = v := by
  subst hA
  refine memRead_leBytes_two _ _ _ hv ?_ ?_
  · exact (getD_piece A (leBytes 2 v) C 0 (by simp)).trans (by rw [leBytes_two]; rfl)
  · exact (getD_piece A (leBytes 2 v) C 1 (by simp)).trans (by rw [leBytes_two]; rfl)

/-- A 32-bit field of a byte sequence put together from pieces reads back. -/
theorem memRead_piece_four (A C : List Byte) (k v : Nat) (hA : A.length = k) (hv : v < 4294967296) :
    memRead (A ++ leBytes 4 v ++ C) k 4 = v := by
  subst hA
  have e (j : Nat) (hj : j < 4) := getD_piece A (leBytes 4 v) C j (by simpa using hj)
  rw [memRead_four, e 1 (by decide), e 2 (by decide), e 3 (by decide),
    show (A ++ leBytes 4 v ++ C).getD A.length 0 = _ from e 0 (by decide), leBytes_four]
  simp only [List.getD_cons_zero, List.getD_cons_succ, BitVec.toNat_ofNat]
  omega

@[simp] theorem downmix_length (sel : Sel) (P : List Byte) : (downmix sel P).length = P.length / 4 * 2 :=
  flatMap_range_length 2 _ _ fun _ => leBytes_length 2 _

@[simp] theorem merge_length (X Y : List Byte) : (merge X Y).length = min (X.length / 2) (Y.length / 2) * 4 :=
  flatMap_range_length 4 _ _ fun _ => rfl

@[simp] theorem midSideEncode_length (P : List Byte) : (midSideEncode P).length = P.length / 4 * 4 :=
  flatMap_range_length 4 _ _ fun _ => leBytes_length 4 _

@[simp] theorem stereoBytes_length (f : Int × Int) : (stereoBytes f).length = 4 := by simp [stereoBytes]

@[simp] theorem midSideDecode_length (P : List Byte) : (midSideDecode P).length = P.length / 4 * 4 :=
  flatMap_range_length 4 _ _ fun _ => stereoBytes_length _

/-- Byte j of the output sample i of a down-mix. -/
theorem downmix_getD (sel : Sel) (P : List Byte) (i j : Nat) (hi : i < P.length / 4) (hj : j < 2) (d : Byte) :
    (downmix sel P).getD (2 * i + j) d = (leBytes 2 (u16 (downmixFrame sel (stereoFrame P i)))).getD j d :=
  flatMap_range_getD 2 _ _ (fun _ => leBytes_length 2 _) i j hi hj d

/-- Byte j of the output frame i of a merge. -/
theorem merge_getD (X Y : List Byte) (i j : Nat) (hi : i < min (X.length / 2) (Y.length / 2)) (hj : j < 4) (d : Byte) :
    (merge X Y).getD (4 * i + j) d
      = [X.getD (2 * i) 0, X.getD (2 * i + 1) 0, Y.getD (2 * i) 0, Y.getD (2 * i + 1) 0].getD j d :=
  flatMap_range_getD 4 _ _ (fun _ => rfl) i j hi hj d

/-- Byte j of the coded sample i of an encoded payload. -/
theorem midSideEncode_getD (P : List Byte) (i j : Nat) (hi : i < P.length / 4) (hj : j < 4) (d : Byte) :
    (midSideEncode P).getD (4 * i + j) d = (leBytes 4 (encodeFrame (stereoFrame P i))).getD j d :=
  flatMap_range_getD 4 _ _ (fun _ => leBytes_length 4 _) i j hi hj d

/-- Byte j of the stereo frame i of a decoded payload. -/
theorem midSideDecode_getD (P : List Byte) (i j : Nat) (hi : i < P.length / 4) (hj : j < 4) (d : Byte) :
    (midSideDecode P).getD (4 * i + j) d = (stereoBytes (decodeSample (codedSample P i))).getD j d :=
  flatMap_range_getD 4 _ _ (fun _ => stereoBytes_length _) i j hi hj d

/-- The two 16-bit fields of a word put together from mid and side (43_midside_encode.md R181). -/
theorem encodeFrame_eq (f : Int × Int) :
    encodeFrame f = u16 (fdiv2 (f.1 + f.2)) * 65536 + u16 (fdiv2 (f.1 - f.2)) := by
  have h : u16 (fdiv2 (f.1 - f.2)) < 2 ^ 16 := u16_lt _
  rw [encodeFrame, ← Nat.shiftLeft_add_eq_or_of_lt h, Nat.shiftLeft_eq]

/-- The fields of a coded sample, by division (44_midside_decode.md R190). -/
theorem decodeSample_eq (w : Nat) (h : w < 0x100000000) :
    decodeSample w = (clamp16 ((w / 65536 : Nat) + s16 (w % 65536)), clamp16 ((w / 65536 : Nat) - s16 (w % 65536))) := by
  have e (n : Nat) : n &&& 65535 = n % 65536 := Nat.and_two_pow_sub_one_eq_mod n 16
  have e1 : w &&& 65535 = w % 65536 := e w
  have e2 : (w >>> 16) &&& 65535 = w / 65536 := by
    rw [e, Nat.shiftRight_eq_div_pow]
    omega
  simp only [decodeSample, e1, e2]

end Sys2Proof.Machine
end

