-- ==== Sys2Proof/Laws/State.lean ====
section
/-!
SUPPORT. What each update of the state leaves in each field, so that no later proof unfolds a record update.
-/

namespace Sys2Proof.Machine

@[simp] theorem State.raise_sa (s : State) (e : ErrKind) : (s.raise e).sa = s.sa := rfl
@[simp] theorem State.raise_sb (s : State) (e : ErrKind) : (s.raise e).sb = s.sb := rfl
@[simp] theorem State.raise_pa (s : State) (e : ErrKind) : (s.raise e).pa = s.pa := rfl
@[simp] theorem State.raise_pb (s : State) (e : ErrKind) : (s.raise e).pb = s.pb := rfl
@[simp] theorem State.raise_po (s : State) (e : ErrKind) : (s.raise e).po = s.po := rfl
@[simp] theorem State.raise_ha (s : State) (e : ErrKind) : (s.raise e).ha = s.ha := rfl
@[simp] theorem State.raise_hb (s : State) (e : ErrKind) : (s.raise e).hb = s.hb := rfl
@[simp] theorem State.raise_och (s : State) (e : ErrKind) : (s.raise e).och = s.och := rfl
@[simp] theorem State.raise_orate (s : State) (e : ErrKind) : (s.raise e).orate = s.orate := rfl
@[simp] theorem State.raise_obps (s : State) (e : ErrKind) : (s.raise e).obps = s.obps := rfl
@[simp] theorem State.raise_odsize (s : State) (e : ErrKind) : (s.raise e).odsize = s.odsize := rfl
@[simp] theorem State.raise_oh (s : State) (e : ErrKind) : (s.raise e).oh = s.oh := rfl
@[simp] theorem State.raise_status (s : State) (e : ErrKind) : (s.raise e).status = statusOnError e := rfl
@[simp] theorem State.raise_pending (s : State) (e : ErrKind) : (s.raise e).pending = s.pending := rfl
@[simp] theorem State.raise_pos (s : State) (e : ErrKind) : (s.raise e).pos = s.pos := rfl
@[simp] theorem State.raise_received (s : State) (e : ErrKind) : (s.raise e).received = s.received := rfl

@[simp] theorem State.succeed_sa (s : State) : (s.succeed).sa = s.sa := rfl
@[simp] theorem State.succeed_sb (s : State) : (s.succeed).sb = s.sb := rfl
@[simp] theorem State.succeed_pa (s : State) : (s.succeed).pa = s.pa := rfl
@[simp] theorem State.succeed_pb (s : State) : (s.succeed).pb = s.pb := rfl
@[simp] theorem State.succeed_po (s : State) : (s.succeed).po = s.po := rfl
@[simp] theorem State.succeed_ha (s : State) : (s.succeed).ha = s.ha := rfl
@[simp] theorem State.succeed_hb (s : State) : (s.succeed).hb = s.hb := rfl
@[simp] theorem State.succeed_och (s : State) : (s.succeed).och = s.och := rfl
@[simp] theorem State.succeed_orate (s : State) : (s.succeed).orate = s.orate := rfl
@[simp] theorem State.succeed_obps (s : State) : (s.succeed).obps = s.obps := rfl
@[simp] theorem State.succeed_odsize (s : State) : (s.succeed).odsize = s.odsize := rfl
@[simp] theorem State.succeed_oh (s : State) : (s.succeed).oh = s.oh := rfl
@[simp] theorem State.succeed_status (s : State) : (s.succeed).status = statusOnSuccess s.status := rfl
@[simp] theorem State.succeed_pending (s : State) : (s.succeed).pending = s.pending := rfl
@[simp] theorem State.succeed_pos (s : State) : (s.succeed).pos = s.pos := rfl
@[simp] theorem State.succeed_received (s : State) : (s.succeed).received = s.received := rfl

@[simp] theorem State.setOut_sa (s : State) (bs : List Byte) : (s.setOut bs).sa = s.sa := rfl
@[simp] theorem State.setOut_sb (s : State) (bs : List Byte) : (s.setOut bs).sb = s.sb := rfl
@[simp] theorem State.setOut_pa (s : State) (bs : List Byte) : (s.setOut bs).pa = s.pa := rfl
@[simp] theorem State.setOut_pb (s : State) (bs : List Byte) : (s.setOut bs).pb = s.pb := rfl
@[simp] theorem State.setOut_po (s : State) (bs : List Byte) : (s.setOut bs).po = Buffer.ofBytes bs := rfl
@[simp] theorem State.setOut_ha (s : State) (bs : List Byte) : (s.setOut bs).ha = s.ha := rfl
@[simp] theorem State.setOut_hb (s : State) (bs : List Byte) : (s.setOut bs).hb = s.hb := rfl
@[simp] theorem State.setOut_och (s : State) (bs : List Byte) : (s.setOut bs).och = s.och := rfl
@[simp] theorem State.setOut_orate (s : State) (bs : List Byte) : (s.setOut bs).orate = s.orate := rfl
@[simp] theorem State.setOut_obps (s : State) (bs : List Byte) : (s.setOut bs).obps = s.obps := rfl
@[simp] theorem State.setOut_odsize (s : State) (bs : List Byte) : (s.setOut bs).odsize = s.odsize := rfl
@[simp] theorem State.setOut_oh (s : State) (bs : List Byte) : (s.setOut bs).oh = s.oh := rfl
@[simp] theorem State.setOut_status (s : State) (bs : List Byte) : (s.setOut bs).status = s.status := rfl
@[simp] theorem State.setOut_pending (s : State) (bs : List Byte) : (s.setOut bs).pending = s.pending := rfl
@[simp] theorem State.setOut_pos (s : State) (bs : List Byte) : (s.setOut bs).pos = s.pos := rfl
@[simp] theorem State.setOut_received (s : State) (bs : List Byte) : (s.setOut bs).received = s.received := rfl

@[simp] theorem State.setOutHeader_sa (s : State) (bs : List Byte) : (s.setOutHeader bs).sa = s.sa := rfl
@[simp] theorem State.setOutHeader_sb (s : State) (bs : List Byte) : (s.setOutHeader bs).sb = s.sb := rfl
@[simp] theorem State.setOutHeader_pa (s : State) (bs : List Byte) : (s.setOutHeader bs).pa = s.pa := rfl
@[simp] theorem State.setOutHeader_pb (s : State) (bs : List Byte) : (s.setOutHeader bs).pb = s.pb := rfl
@[simp] theorem State.setOutHeader_po (s : State) (bs : List Byte) : (s.setOutHeader bs).po = s.po := rfl
@[simp] theorem State.setOutHeader_ha (s : State) (bs : List Byte) : (s.setOutHeader bs).ha = s.ha := rfl
@[simp] theorem State.setOutHeader_hb (s : State) (bs : List Byte) : (s.setOutHeader bs).hb = s.hb := rfl
@[simp] theorem State.setOutHeader_och (s : State) (bs : List Byte) : (s.setOutHeader bs).och = s.och := rfl
@[simp] theorem State.setOutHeader_orate (s : State) (bs : List Byte) : (s.setOutHeader bs).orate = s.orate := rfl
@[simp] theorem State.setOutHeader_obps (s : State) (bs : List Byte) : (s.setOutHeader bs).obps = s.obps := rfl
@[simp] theorem State.setOutHeader_odsize (s : State) (bs : List Byte) : (s.setOutHeader bs).odsize = s.odsize := rfl
@[simp] theorem State.setOutHeader_oh (s : State) (bs : List Byte) : (s.setOutHeader bs).oh = Memory.ofBytes bs := rfl
@[simp] theorem State.setOutHeader_status (s : State) (bs : List Byte) : (s.setOutHeader bs).status = s.status := rfl
@[simp] theorem State.setOutHeader_pending (s : State) (bs : List Byte) : (s.setOutHeader bs).pending = s.pending := rfl
@[simp] theorem State.setOutHeader_pos (s : State) (bs : List Byte) : (s.setOutHeader bs).pos = s.pos := rfl
@[simp] theorem State.setOutHeader_received (s : State) (bs : List Byte) : (s.setOutHeader bs).received = s.received := rfl

@[simp] theorem State.setHdr_sa (s : State) (x : Side) (h : HdrRegs) : (s.setHdr x h).sa = s.sa := by cases x <;> rfl
@[simp] theorem State.setHdr_sb (s : State) (x : Side) (h : HdrRegs) : (s.setHdr x h).sb = s.sb := by cases x <;> rfl
@[simp] theorem State.setHdr_pa (s : State) (x : Side) (h : HdrRegs) : (s.setHdr x h).pa = s.pa := by cases x <;> rfl
@[simp] theorem State.setHdr_pb (s : State) (x : Side) (h : HdrRegs) : (s.setHdr x h).pb = s.pb := by cases x <;> rfl
@[simp] theorem State.setHdr_po (s : State) (x : Side) (h : HdrRegs) : (s.setHdr x h).po = s.po := by cases x <;> rfl
@[simp] theorem State.setHdr_och (s : State) (x : Side) (h : HdrRegs) : (s.setHdr x h).och = s.och := by cases x <;> rfl
@[simp] theorem State.setHdr_orate (s : State) (x : Side) (h : HdrRegs) : (s.setHdr x h).orate = s.orate := by cases x <;> rfl
@[simp] theorem State.setHdr_obps (s : State) (x : Side) (h : HdrRegs) : (s.setHdr x h).obps = s.obps := by cases x <;> rfl
@[simp] theorem State.setHdr_odsize (s : State) (x : Side) (h : HdrRegs) : (s.setHdr x h).odsize = s.odsize := by cases x <;> rfl
@[simp] theorem State.setHdr_oh (s : State) (x : Side) (h : HdrRegs) : (s.setHdr x h).oh = s.oh := by cases x <;> rfl
@[simp] theorem State.setHdr_status (s : State) (x : Side) (h : HdrRegs) : (s.setHdr x h).status = s.status := by cases x <;> rfl
@[simp] theorem State.setHdr_pending (s : State) (x : Side) (h : HdrRegs) : (s.setHdr x h).pending = s.pending := by cases x <;> rfl
@[simp] theorem State.setHdr_pos (s : State) (x : Side) (h : HdrRegs) : (s.setHdr x h).pos = s.pos := by cases x <;> rfl
@[simp] theorem State.setHdr_received (s : State) (x : Side) (h : HdrRegs) : (s.setHdr x h).received = s.received := by cases x <;> rfl

@[simp] theorem State.setHdr_a_ha (s : State) (h : HdrRegs) : (s.setHdr .a h).ha = h := rfl
@[simp] theorem State.setHdr_a_hb (s : State) (h : HdrRegs) : (s.setHdr .a h).hb = s.hb := rfl
@[simp] theorem State.setHdr_b_ha (s : State) (h : HdrRegs) : (s.setHdr .b h).ha = s.ha := rfl
@[simp] theorem State.setHdr_b_hb (s : State) (h : HdrRegs) : (s.setHdr .b h).hb = h := rfl
@[simp] theorem State.setHdr_hdr (s : State) (x : Side) (h : HdrRegs) : (s.setHdr x h).hdr x = h := by cases x <;> rfl

@[simp] theorem State.setPayload_sa (s : State) (x : Side) (p : Buffer) : (s.setPayload x p).sa = s.sa := by cases x <;> rfl
@[simp] theorem State.setPayload_sb (s : State) (x : Side) (p : Buffer) : (s.setPayload x p).sb = s.sb := by cases x <;> rfl
@[simp] theorem State.setPayload_po (s : State) (x : Side) (p : Buffer) : (s.setPayload x p).po = s.po := by cases x <;> rfl
@[simp] theorem State.setPayload_ha (s : State) (x : Side) (p : Buffer) : (s.setPayload x p).ha = s.ha := by cases x <;> rfl
@[simp] theorem State.setPayload_hb (s : State) (x : Side) (p : Buffer) : (s.setPayload x p).hb = s.hb := by cases x <;> rfl
@[simp] theorem State.setPayload_och (s : State) (x : Side) (p : Buffer) : (s.setPayload x p).och = s.och := by cases x <;> rfl
@[simp] theorem State.setPayload_orate (s : State) (x : Side) (p : Buffer) : (s.setPayload x p).orate = s.orate := by cases x <;> rfl
@[simp] theorem State.setPayload_obps (s : State) (x : Side) (p : Buffer) : (s.setPayload x p).obps = s.obps := by cases x <;> rfl
@[simp] theorem State.setPayload_odsize (s : State) (x : Side) (p : Buffer) : (s.setPayload x p).odsize = s.odsize := by cases x <;> rfl
@[simp] theorem State.setPayload_oh (s : State) (x : Side) (p : Buffer) : (s.setPayload x p).oh = s.oh := by cases x <;> rfl
@[simp] theorem State.setPayload_status (s : State) (x : Side) (p : Buffer) : (s.setPayload x p).status = s.status := by cases x <;> rfl
@[simp] theorem State.setPayload_pending (s : State) (x : Side) (p : Buffer) : (s.setPayload x p).pending = s.pending := by cases x <;> rfl
@[simp] theorem State.setPayload_pos (s : State) (x : Side) (p : Buffer) : (s.setPayload x p).pos = s.pos := by cases x <;> rfl
@[simp] theorem State.setPayload_received (s : State) (x : Side) (p : Buffer) : (s.setPayload x p).received = s.received := by cases x <;> rfl

@[simp] theorem State.setPayload_a_pa (s : State) (p : Buffer) : (s.setPayload .a p).pa = p := rfl
@[simp] theorem State.setPayload_a_pb (s : State) (p : Buffer) : (s.setPayload .a p).pb = s.pb := rfl
@[simp] theorem State.setPayload_b_pa (s : State) (p : Buffer) : (s.setPayload .b p).pa = s.pa := rfl
@[simp] theorem State.setPayload_b_pb (s : State) (p : Buffer) : (s.setPayload .b p).pb = p := rfl

@[simp] theorem State.source_a (s : State) : s.source .a = s.sa := rfl
@[simp] theorem State.source_b (s : State) : s.source .b = s.sb := rfl
@[simp] theorem State.hdr_a (s : State) : s.hdr .a = s.ha := rfl
@[simp] theorem State.hdr_b (s : State) : s.hdr .b = s.hb := rfl

@[simp] theorem State.resetBlock_sa (s : State) : s.resetBlock.sa = State.reset.sa := rfl
@[simp] theorem State.resetBlock_sb (s : State) : s.resetBlock.sb = State.reset.sb := rfl
@[simp] theorem State.resetBlock_pa (s : State) : s.resetBlock.pa = State.reset.pa := rfl
@[simp] theorem State.resetBlock_pb (s : State) : s.resetBlock.pb = State.reset.pb := rfl
@[simp] theorem State.resetBlock_po (s : State) : s.resetBlock.po = State.reset.po := rfl
@[simp] theorem State.resetBlock_ha (s : State) : s.resetBlock.ha = State.reset.ha := rfl
@[simp] theorem State.resetBlock_hb (s : State) : s.resetBlock.hb = State.reset.hb := rfl
@[simp] theorem State.resetBlock_och (s : State) : s.resetBlock.och = State.reset.och := rfl
@[simp] theorem State.resetBlock_orate (s : State) : s.resetBlock.orate = State.reset.orate := rfl
@[simp] theorem State.resetBlock_obps (s : State) : s.resetBlock.obps = State.reset.obps := rfl
@[simp] theorem State.resetBlock_odsize (s : State) : s.resetBlock.odsize = State.reset.odsize := rfl
@[simp] theorem State.resetBlock_oh (s : State) : s.resetBlock.oh = State.reset.oh := rfl
@[simp] theorem State.resetBlock_status (s : State) : s.resetBlock.status = State.reset.status := rfl
@[simp] theorem State.resetBlock_pending (s : State) : s.resetBlock.pending = s.pending := rfl
@[simp] theorem State.resetBlock_pos (s : State) : s.resetBlock.pos = s.pos := rfl
@[simp] theorem State.resetBlock_received (s : State) : s.resetBlock.received = s.received := rfl

@[simp] theorem State.withFetchWord_sa (s : State) (k w : Nat) : (s.withFetchWord k w).sa = s.sa := rfl
@[simp] theorem State.withFetchWord_sb (s : State) (k w : Nat) : (s.withFetchWord k w).sb = s.sb := rfl
@[simp] theorem State.withFetchWord_pa (s : State) (k w : Nat) : (s.withFetchWord k w).pa = s.pa := rfl
@[simp] theorem State.withFetchWord_pb (s : State) (k w : Nat) : (s.withFetchWord k w).pb = s.pb := rfl
@[simp] theorem State.withFetchWord_po (s : State) (k w : Nat) : (s.withFetchWord k w).po = s.po := rfl
@[simp] theorem State.withFetchWord_ha (s : State) (k w : Nat) : (s.withFetchWord k w).ha = s.ha := rfl
@[simp] theorem State.withFetchWord_hb (s : State) (k w : Nat) : (s.withFetchWord k w).hb = s.hb := rfl
@[simp] theorem State.withFetchWord_och (s : State) (k w : Nat) : (s.withFetchWord k w).och = s.och := rfl
@[simp] theorem State.withFetchWord_orate (s : State) (k w : Nat) : (s.withFetchWord k w).orate = s.orate := rfl
@[simp] theorem State.withFetchWord_obps (s : State) (k w : Nat) : (s.withFetchWord k w).obps = s.obps := rfl
@[simp] theorem State.withFetchWord_odsize (s : State) (k w : Nat) : (s.withFetchWord k w).odsize = s.odsize := rfl
@[simp] theorem State.withFetchWord_oh (s : State) (k w : Nat) : (s.withFetchWord k w).oh = s.oh := rfl
@[simp] theorem State.withFetchWord_status (s : State) (k w : Nat) : (s.withFetchWord k w).status = s.status := rfl
@[simp] theorem State.withFetchWord_pending (s : State) (k w : Nat) : (s.withFetchWord k w).pending = HostLine.act (.cmd (BitVec.ofNat 8 w)) :: s.pending := rfl
@[simp] theorem State.withFetchWord_pos (s : State) (k w : Nat) : (s.withFetchWord k w).pos = s.pos := rfl
@[simp] theorem State.withFetchWord_received (s : State) (k w : Nat) : (s.withFetchWord k w).received = s.received := rfl

end Sys2Proof.Machine
end

