-- ==== Sys2Proof/Laws/Ops.lean ====
section
/-!
SUPPORT. What each shared operation can do, said once: every one answers a next state, and it is one of the cases named.
-/

namespace Sys2Proof.Machine

theorem parseHeader_length {S : List Byte} (h : S.length < 44) : parseHeader S = .error .invalidHeaderLength := by
  simp [parseHeader, headerLength, h]

theorem parseHeader_tag {S : List Byte} (h : 44 ≤ S.length) (hl : literalsMatch S = false) :
    parseHeader S = .error .invalidHeaderTag := by
  simp [parseHeader, headerLength, Nat.not_lt.mpr h, hl]

theorem parseHeader_ok {S : List Byte} (h : 44 ≤ S.length) (hl : literalsMatch S = true) :
    parseHeader S = .ok ⟨memRead S 22 2, memRead S 24 4, memRead S 34 2, memRead S 40 4, slice S 0 44⟩ := by
  simp [parseHeader, headerLength, Nat.not_lt.mpr h, hl]

/-- The three outcomes of the parse. -/
theorem parseHeader_cases (S : List Byte) :
    (S.length < 44 ∧ parseHeader S = .error .invalidHeaderLength) ∨
    (44 ≤ S.length ∧ literalsMatch S = false ∧ parseHeader S = .error .invalidHeaderTag) ∨
    (44 ≤ S.length ∧ literalsMatch S = true ∧
      parseHeader S = .ok ⟨memRead S 22 2, memRead S 24 4, memRead S 34 2, memRead S 40 4, slice S 0 44⟩) := by
  by_cases h : S.length < 44
  · exact .inl ⟨h, parseHeader_length h⟩
  · have h' : 44 ≤ S.length := by omega
    cases hl : literalsMatch S
    · exact .inr (.inl ⟨h', rfl, parseHeader_tag h' hl⟩)
    · exact .inr (.inr ⟨h', rfl, parseHeader_ok h' hl⟩)

/-- What PARSE can do on a side: raise one of two errors, or write Hx. -/
theorem parseSide_cases (x : Side) (s : State) :
    (parseSide x s = .next (s.raise .invalidHeaderLength) ∧ (s.source x).len.toNat < 44) ∨
    (parseSide x s = .next (s.raise .invalidHeaderTag) ∧ 44 ≤ (s.source x).len.toNat) ∨
    (∃ h : Header, parseHeader (s.source x).bytes = .ok h ∧ 44 ≤ (s.source x).len.toNat ∧
      parseSide x s = .next (s.setHdr x h.regs).succeed) := by
  rcases parseHeader_cases (s.source x).bytes with ⟨h, e⟩ | ⟨h, _, e⟩ | ⟨h, _, e⟩ <;> rw [Buffer.bytes_length] at h
  · exact .inl ⟨by simp [parseSide, e], h⟩
  · exact .inr (.inl ⟨by simp [parseSide, e], h⟩)
  · exact .inr (.inr ⟨_, e, h, by simp [parseSide, e]⟩)

/-- The payload RDC copies on a side. -/
def payloadOf (x : Side) (s : State) (h : Header) : List Byte :=
  slice (s.source x).bytes 44 (44 + min h.dsize ((s.source x).len.toNat - 44))

theorem payloadOf_length (x : Side) (s : State) (h : Header) (_hs : 44 ≤ (s.source x).len.toNat) :
    (payloadOf x s h).length = min h.dsize ((s.source x).len.toNat - 44) := by
  simp [payloadOf, slice]

/-- What RDC can do on a side: raise one of two errors, or write Hx and Px. -/
theorem readSide_cases (x : Side) (s : State) :
    (readSide x s = .next (s.raise .invalidHeaderLength) ∧ (s.source x).len.toNat < 44) ∨
    (readSide x s = .next (s.raise .invalidHeaderTag) ∧ 44 ≤ (s.source x).len.toNat) ∨
    (∃ h : Header, parseHeader (s.source x).bytes = .ok h ∧ 44 ≤ (s.source x).len.toNat ∧
      readSide x s = .next ((s.setHdr x h.regs).setPayload x (Buffer.ofBytes (payloadOf x s h))).succeed) := by
  rcases parseHeader_cases (s.source x).bytes with ⟨h, e⟩ | ⟨h, _, e⟩ | ⟨h, _, e⟩ <;> rw [Buffer.bytes_length] at h
  · exact .inl ⟨by simp [readSide, e], h⟩
  · exact .inr (.inl ⟨by simp [readSide, e], h⟩)
  · exact .inr (.inr ⟨_, e, h, by simp [readSide, e, payloadOf]⟩)

@[simp] theorem headerBytes_length (ch rate bps ds : Nat) : (headerBytes ch rate bps ds).length = 44 := by
  simp [headerBytes, tagRIFF, tagWAVE, tagFmt, tagData]

/-- A header fits: none of the three computed fields exceeds its width (40_headercodec.md R123). -/
def headerFits (ch rate bps ds : Nat) : Prop :=
  byteRate ch rate bps ≤ 0xFFFFFFFF ∧ blockAlign ch bps ≤ 0xFFFF ∧ riffSize ds ≤ 0xFFFFFFFF

theorem buildHeader_fits {ch rate bps ds : Nat} (h : headerFits ch rate bps ds) :
    buildHeader ch rate bps ds = .ok (headerBytes ch rate bps ds) := by
  obtain ⟨h1, h2, h3⟩ := h
  exact if_neg fun c => c.elim (Nat.not_lt.mpr h1) fun c => c.elim (Nat.not_lt.mpr h2) (Nat.not_lt.mpr h3)

theorem buildHeader_overflow {ch rate bps ds : Nat} (h : ¬headerFits ch rate bps ds) :
    buildHeader ch rate bps ds = .error .fieldOverflow := by
  refine if_pos (Classical.byContradiction fun c => h ⟨?_, ?_, ?_⟩)
  · exact Nat.not_lt.mp fun e => c (.inl e)
  · exact Nat.not_lt.mp fun e => c (.inr (.inl e))
  · exact Nat.not_lt.mp fun e => c (.inr (.inr e))

/-- What BUILD and WRC can do: raise FieldOverflow, or write OH. -/
theorem writeHeader_cases (ds : Nat) (s : State) :
    (¬headerFits s.och.toNat s.orate.toNat s.obps.toNat ds ∧ writeHeader ds s = .next (s.raise .fieldOverflow)) ∨
    (headerFits s.och.toNat s.orate.toNat s.obps.toNat ds ∧ writeHeader ds s
      = .next (s.setOutHeader (headerBytes s.och.toNat s.orate.toNat s.obps.toNat ds)).succeed) := by
  by_cases h : headerFits s.och.toNat s.orate.toNat s.obps.toNat ds
  · exact .inr ⟨h, by rw [writeHeader, buildHeader_fits h]⟩
  · exact .inl ⟨h, by rw [writeHeader, buildHeader_overflow h]⟩

/-- What a DMX command can do: raise UnsupportedFormat, or write PO. -/
theorem runDownmix_cases (sel : Sel) (s : State) :
    runDownmix sel s = .next (s.raise .unsupportedFormat) ∨
    runDownmix sel s = .next (s.setOut (downmix sel s.pa.bytes)).succeed := by
  unfold runDownmix; split <;> simp

/-- What MRG can do: raise MismatchedInputs, or write PO. -/
theorem execMrg_cases (s : State) :
    execMrg s = .next (s.raise .mismatchedInputs) ∨
    (s.pa.len = s.pb.len ∧ execMrg s = .next (s.setOut (merge s.pa.bytes s.pb.bytes)).succeed) := by
  unfold execMrg State.mergeable
  split
  · next h => simp only [Bool.and_eq_true, beq_iff_eq] at h; exact .inr ⟨h.2, rfl⟩
  · exact .inl rfl

/-- What MSE can do: raise UnsupportedFormat, or write PO. -/
theorem execMse_cases (s : State) :
    execMse s = .next (s.raise .unsupportedFormat) ∨
    execMse s = .next (s.setOut (midSideEncode s.pa.bytes)).succeed := by
  unfold execMse; split <;> simp

/-- What MSD can do: raise UnsupportedFormat or EmptyPayload, or write PO. -/
theorem execMsd_cases (s : State) :
    execMsd s = .next (s.raise .unsupportedFormat) ∨ execMsd s = .next (s.raise .emptyPayload) ∨
    execMsd s = .next (s.setOut (midSideDecode s.pa.bytes)).succeed := by
  unfold execMsd; split <;> (try split) <;> simp

end Sys2Proof.Machine
end

