-- ==== Sys2Proof/Laws/Host.lean ====
section
/-!
SUPPORT. What each host action can do, said once: if it answers a next state, that state is one of those named.
-/

namespace Sys2Proof.Machine

theorem config_cap_le : Config.CAP ≤ 2147483647 := Nat.le_of_lt_succ Config.cap.isLt

/-- The command port: a legal word runs its command, an illegal one raises IllegalCommand. -/
theorem issueCommand_cases (w : Byte) (s : State) :
    (∃ i, decode w = .ok i ∧ issueCommand w s = exec i s) ∨
    (∃ e, decode w = .error e ∧ issueCommand w s = .next (s.raise .illegalCommand)) := by
  unfold issueCommand
  cases h : decode w with
  | ok i => exact .inl ⟨i, rfl, rfl⟩
  | error e => exact .inr ⟨e, rfl, rfl⟩

/-- LOAD: an input buffer is replaced, and the bytes fit its capacity. -/
theorem loadAction_next {x : BufId} {bs : List Byte} {s t : State} (h : loadAction x bs s = .next t) :
    bs.length ≤ bufCapacity x ∧
      ((x = .sa ∧ t = { s with sa := Buffer.ofBytes bs }) ∨ (x = .sb ∧ t = { s with sb := Buffer.ofBytes bs }) ∨
        (x = .pa ∧ t = { s with pa := Buffer.ofBytes bs }) ∨ (x = .pb ∧ t = { s with pb := Buffer.ofBytes bs })) := by
  have done {u : State} (hu : (if bs.length ≤ bufCapacity x then .next u else .refused (.loadTooLong x) :
      Host.Outcome State Fault Refusal) = .next t) : bs.length ≤ bufCapacity x ∧ t = u := by
    by_cases hl : bs.length ≤ bufCapacity x
    · rw [if_pos hl] at hu; exact ⟨hl, (Host.Outcome.next.inj hu).symm⟩
    · rw [if_neg hl] at hu; exact Host.Outcome.noConfusion rfl rfl rfl (heq_of_eq hu)
  cases x with
  | sa => obtain ⟨hl, e⟩ := done h; exact ⟨hl, .inl ⟨rfl, e⟩⟩
  | sb => obtain ⟨hl, e⟩ := done h; exact ⟨hl, .inr (.inl ⟨rfl, e⟩)⟩
  | pa => obtain ⟨hl, e⟩ := done h; exact ⟨hl, .inr (.inr (.inl ⟨rfl, e⟩))⟩
  | pb => obtain ⟨hl, e⟩ := done h; exact ⟨hl, .inr (.inr (.inr ⟨rfl, e⟩))⟩
  | po => cases h
  | oh => cases h
  | haRaw => cases h
  | hbRaw => cases h

/-- The part of the state that a WR of a register cannot reach: everything but the numbers of HA and HB and the four
output parameters. -/
def sameButNumbers (s t : State) : Prop :=
  t = { s with ha := { t.ha with raw := s.ha.raw }, hb := { t.hb with raw := s.hb.raw },
               och := t.och, orate := t.orate, obps := t.obps, odsize := t.odsize }

theorem writeReg_some {s t : State} {r : Reg} {v : Nat} (h : s.writeReg r v = some t) : sameButNumbers s t := by
  cases r <;> simp only [State.writeReg, reduceCtorEq, Option.some.injEq] at h <;> subst h <;> rfl

/-- WR: a command, or a register write that reaches only the numbers of HA and HB and the output parameters. -/
theorem writeNumber_next {n v : Nat} {s t : State} (h : writeNumber n v s = .next t) :
    (regOfNumber n = some .cmd ∧ issueCommand (BitVec.ofNat 8 v) s = .next t) ∨
    (∃ r, regOfNumber n = some r ∧ v < 2 ^ regWidth r ∧ s.writeReg r v = some t) := by
  unfold writeNumber at h
  split at h
  · cases h
  · next r hr =>
    by_cases hv : v < 2 ^ regWidth r
    · rw [if_pos hv] at h
      by_cases hc : r = .cmd
      · rw [if_pos hc] at h; exact .inl ⟨hc ▸ hr, h⟩
      · rw [if_neg hc] at h
        split at h
        · cases h
        · next u hu => cases h; exact .inr ⟨r, hr, hv, hu⟩
    · rw [if_neg hv] at h; cases h

/-- Every host action that answers a next state: one of the six of 00_scope.md R9. -/
theorem perform_next {a : HostAction} {s t : State} (h : perform a s = .next t) :
    (∃ x bs, a = .load x bs ∧ loadAction x bs s = .next t) ∨
    (∃ n v k, a = .wr n v ∧ s.hostValue v = .ok k ∧ writeNumber n k s = .next t) ∨
    (∃ d, t = { s with received := s.received ++ [d] }) ∨
    (∃ w, a = .cmd w ∧ issueCommand w s = .next t) ∨
    (a = .reset ∧ t = s.resetBlock) := by
  cases a with
  | load x bs => exact .inl ⟨x, bs, rfl, h⟩
  | wr n v =>
    simp only [perform] at h
    split at h
    · cases h
    · next k hk => exact .inr (.inl ⟨n, v, k, rfl, hk, h⟩)
  | rd n =>
    simp only [perform] at h
    split at h
    · cases h
    · next v _ => cases h; exact .inr (.inr (.inl ⟨.value v, rfl⟩))
  | read x => cases h; exact .inr (.inr (.inl ⟨.content (s.readBuf x), rfl⟩))
  | cmd w => exact .inr (.inr (.inr (.inl ⟨w, rfl, h⟩)))
  | reset => cases h; exact .inr (.inr (.inr (.inr ⟨rfl, rfl⟩)))

/-- The state in which a line is carried out: the line taken from the script, the position advanced. -/
def State.taken (s : State) (rest : List HostLine) : State := { s with pending := rest, pos := s.pos + 1 }

/-- A step carries out the first pending line on the state with that line taken. -/
theorem step_cons {s : State} {l : HostLine} {rest : List HostLine} (h : s.pending = l :: rest) :
    step s = performLine l (s.taken rest) := by
  simp [step, State.fetch, h, State.taken]

theorem step_nil {s : State} (h : s.pending = []) : step s = .refused .noHostAction := by
  simp [step, State.fetch, h]

/-- What a step that answers a next state did: a host action, or a STOP-IF-ERR, on the state with the line taken. -/
theorem step_next {s t : State} (h : step s = .next t) : ∃ l rest, s.pending = l :: rest ∧
    ((∃ a, l = .act a ∧ perform a (s.taken rest) = .next t) ∨
     (l = .stopIfErr ∧ t = if statusErr s.status = 0 then s.taken rest else { s.taken rest with pending := [] })) := by
  cases hp : s.pending with
  | nil => rw [step_nil hp] at h; cases h
  | cons l rest =>
    rw [step_cons hp] at h
    refine ⟨l, rest, rfl, ?_⟩
    cases l with
    | act a => exact .inl ⟨a, rfl, h⟩
    | stopIfErr => exact .inr ⟨rfl, (Host.Outcome.next.inj h).symm⟩

end Sys2Proof.Machine
end

