-- ==== Sys2Proof/Laws/Exec.lean ====
section
/-!
SUPPORT. What a command can do, said once for all thirteen: it raises one of its errors, or it ends with the one result
named here. Later proofs cite `exec_cases` and `issueCommand_next` and unfold no meaning.
-/

namespace Sys2Proof.Machine

/-- The errors a command can end with (the row of 60_exceptions.md R201). -/
def commandErrors : Instr → List ErrKind
  | .parseA | .parseB | .rdcA | .rdcB => [.invalidHeaderLength, .invalidHeaderTag]
  | .build | .wrc => [.fieldOverflow]
  | .dmxL | .dmxR | .dmxS | .dmxD | .mse => [.unsupportedFormat]
  | .mrg => [.mismatchedInputs]
  | .msd => [.unsupportedFormat, .emptyPayload]

/-- The whole next state t of a command that succeeds in s. -/
def commandResult (i : Instr) (s t : State) : Prop :=
  match i with
  | .parseA => ∃ h, parseHeader s.sa.bytes = .ok h ∧ t = (s.setHdr .a h.regs).succeed
  | .parseB => ∃ h, parseHeader s.sb.bytes = .ok h ∧ t = (s.setHdr .b h.regs).succeed
  | .rdcA => ∃ h, parseHeader s.sa.bytes = .ok h ∧ 44 ≤ s.sa.len.toNat ∧
      t = ((s.setHdr .a h.regs).setPayload .a (Buffer.ofBytes (payloadOf .a s h))).succeed
  | .rdcB => ∃ h, parseHeader s.sb.bytes = .ok h ∧ 44 ≤ s.sb.len.toNat ∧
      t = ((s.setHdr .b h.regs).setPayload .b (Buffer.ofBytes (payloadOf .b s h))).succeed
  | .build => t = (s.setOutHeader (headerBytes s.och.toNat s.orate.toNat s.obps.toNat s.odsize.toNat)).succeed
  | .wrc => t = (s.setOutHeader (headerBytes s.och.toNat s.orate.toNat s.obps.toNat s.po.len.toNat)).succeed
  | .dmxL => t = (s.setOut (downmix .left s.pa.bytes)).succeed
  | .dmxR => t = (s.setOut (downmix .right s.pa.bytes)).succeed
  | .dmxS => t = (s.setOut (downmix .midSum s.pa.bytes)).succeed
  | .dmxD => t = (s.setOut (downmix .midDiff s.pa.bytes)).succeed
  | .mrg => s.pa.len = s.pb.len ∧ t = (s.setOut (merge s.pa.bytes s.pb.bytes)).succeed
  | .mse => t = (s.setOut (midSideEncode s.pa.bytes)).succeed
  | .msd => t = (s.setOut (midSideDecode s.pa.bytes)).succeed

/-- A command that succeeds writes 0 to ERR and leaves STICKY. -/
theorem commandResult_status {i : Instr} {s t : State} (h : commandResult i s t) :
    t.status = statusOnSuccess s.status := by
  cases i
  case parseA => obtain ⟨_, _, rfl⟩ := h; rfl
  case parseB => obtain ⟨_, _, rfl⟩ := h; rfl
  case rdcA => obtain ⟨_, _, _, rfl⟩ := h; rfl
  case rdcB => obtain ⟨_, _, _, rfl⟩ := h; rfl
  case mrg => obtain ⟨_, rfl⟩ := h; rfl
  all_goals subst h; rfl

/-- PARSE, as errors of a list or the result. -/
theorem parseSide_outcome (x : Side) (s : State) :
    (∃ e ∈ [ErrKind.invalidHeaderLength, .invalidHeaderTag], parseSide x s = .next (s.raise e)) ∨
    ∃ h, parseHeader (s.source x).bytes = .ok h ∧ parseSide x s = .next (s.setHdr x h.regs).succeed := by
  rcases parseSide_cases x s with ⟨e, _⟩ | ⟨e, _⟩ | ⟨h, hp, _, e⟩
  · exact .inl ⟨_, .head _, e⟩
  · exact .inl ⟨_, .tail _ (.head _), e⟩
  · exact .inr ⟨h, hp, e⟩

/-- RDC, as errors of a list or the result. -/
theorem readSide_outcome (x : Side) (s : State) :
    (∃ e ∈ [ErrKind.invalidHeaderLength, .invalidHeaderTag], readSide x s = .next (s.raise e)) ∨
    ∃ h, parseHeader (s.source x).bytes = .ok h ∧ 44 ≤ (s.source x).len.toNat ∧
      readSide x s = .next ((s.setHdr x h.regs).setPayload x (Buffer.ofBytes (payloadOf x s h))).succeed := by
  rcases readSide_cases x s with ⟨e, _⟩ | ⟨e, _⟩ | ⟨h, hp, hl, e⟩
  · exact .inl ⟨_, .head _, e⟩
  · exact .inl ⟨_, .tail _ (.head _), e⟩
  · exact .inr ⟨h, hp, hl, e⟩

/-- Everything a command can do: raise one of its errors, or end with its result. -/
theorem exec_cases (i : Instr) (s : State) :
    (∃ e ∈ commandErrors i, exec i s = .next (s.raise e)) ∨ ∃ t, exec i s = .next t ∧ commandResult i s t := by
  have one {f : State → Host.Outcome State Fault Refusal} {e : ErrKind} (h : f s = .next (s.raise e)) :
      ∃ k ∈ [e], f s = .next (s.raise k) := ⟨e, .head _, h⟩
  cases i
  case parseA => exact (parseSide_outcome .a s).imp id fun ⟨h, hp, e⟩ => ⟨_, e, h, hp, rfl⟩
  case parseB => exact (parseSide_outcome .b s).imp id fun ⟨h, hp, e⟩ => ⟨_, e, h, hp, rfl⟩
  case rdcA => exact (readSide_outcome .a s).imp id fun ⟨h, hp, hl, e⟩ => ⟨_, e, h, hp, hl, rfl⟩
  case rdcB => exact (readSide_outcome .b s).imp id fun ⟨h, hp, hl, e⟩ => ⟨_, e, h, hp, hl, rfl⟩
  case build => exact (writeHeader_cases s.odsize.toNat s).imp (fun h => one h.2) fun h => ⟨_, h.2, rfl⟩
  case wrc => exact (writeHeader_cases s.po.len.toNat s).imp (fun h => one h.2) fun h => ⟨_, h.2, rfl⟩
  case dmxL => exact (runDownmix_cases .left s).imp one fun h => ⟨_, h, rfl⟩
  case dmxR => exact (runDownmix_cases .right s).imp one fun h => ⟨_, h, rfl⟩
  case dmxS => exact (runDownmix_cases .midSum s).imp one fun h => ⟨_, h, rfl⟩
  case dmxD => exact (runDownmix_cases .midDiff s).imp one fun h => ⟨_, h, rfl⟩
  case mrg => exact (execMrg_cases s).imp one fun h => ⟨_, h.2, h.1, rfl⟩
  case mse => exact (execMse_cases s).imp one fun h => ⟨_, h, rfl⟩
  case msd =>
    rcases execMsd_cases s with e | e | e
    · exact .inl ⟨_, .head _, e⟩
    · exact .inl ⟨_, .tail _ (.head _), e⟩
    · exact .inr ⟨_, e, rfl⟩

/-- Everything a command word can do: raise an error, or run the command it decodes to, which succeeds. -/
theorem issueCommand_next {w : Byte} {s t : State} (h : issueCommand w s = .next t) :
    (∃ e, t = s.raise e) ∨ ∃ i, decode w = .ok i ∧ exec i s = .next t ∧ commandResult i s t := by
  rcases issueCommand_cases w s with ⟨i, hd, e⟩ | ⟨_, _, e⟩
  · rw [e] at h
    rcases exec_cases i s with ⟨k, _, h'⟩ | ⟨t', h', o⟩ <;> rw [h'] at h <;> cases h
    · exact .inl ⟨k, rfl⟩
    · exact .inr ⟨i, hd, h', o⟩
  · rw [e] at h; cases h; exact .inl ⟨_, rfl⟩

/-- The STATUS of a success: ERR 0, STICKY as before. -/
theorem statusOnSuccess_fields (st : BitVec 5) :
    statusErr (statusOnSuccess st) = 0 ∧ statusSticky (statusOnSuccess st) = statusSticky st := by
  revert st; decide

/-- The STATUS of a failure: ERR its code, which is never 0, and STICKY set. -/
theorem statusOnError_fields (e : ErrKind) :
    statusErr (statusOnError e) = BitVec.ofNat 4 e.code ∧ statusSticky (statusOnError e) = 1 ∧
      statusErr (statusOnError e) ≠ 0 := by
  cases e <;> decide

end Sys2Proof.Machine
end

