-- ==== Sys2Proof/Laws/PerInstr.lean ====
section
/-!
SUPPORT. Per instruction: its fields are legal, and its word carries exactly those fields (spec/30_encoding.md R90, R92).
-/

namespace Sys2Proof.Laws.EncodingFields

/-- The instruction is well formed and its word's fields are its own. -/
def Statement (i : Instr) : Prop := i.wf = true ∧ CmdFields.ofWord (encode i) = i.fields

theorem parseA : Statement .parseA := ⟨rfl, rfl⟩
theorem parseB : Statement .parseB := ⟨rfl, rfl⟩
theorem build : Statement .build := ⟨rfl, rfl⟩
theorem rdcA : Statement .rdcA := ⟨rfl, rfl⟩
theorem rdcB : Statement .rdcB := ⟨rfl, rfl⟩
theorem wrc : Statement .wrc := ⟨rfl, rfl⟩
theorem dmxL : Statement .dmxL := ⟨rfl, rfl⟩
theorem dmxR : Statement .dmxR := ⟨rfl, rfl⟩
theorem dmxS : Statement .dmxS := ⟨rfl, rfl⟩
theorem dmxD : Statement .dmxD := ⟨rfl, rfl⟩
theorem mrg : Statement .mrg := ⟨rfl, rfl⟩
theorem mse : Statement .mse := ⟨rfl, rfl⟩
theorem msd : Statement .msd := ⟨rfl, rfl⟩

end Sys2Proof.Laws.EncodingFields
end

