-- ==== Sys2Proof/Tests/Slice0.lean ====
section
/-!
SUPPORT. Tests with expected results from spec/95_test_vectors.md and spec/30_encoding.md (the vector's id stands in each
docstring), and for every obligation with hypotheses a concrete state and operands that meet them (`witness_…`).
-/

namespace Sys2Proof.Tests

open Sys2Proof Sys2Proof.Machine Sys2Proof.Claims

/-! ## Command words: ill-formed fields, decoding, encoding -/

/-- RSV 1, 2 and 3 are refused (R90). -/
theorem test_wf_rsv : CmdFields.rsvOk ⟨1, 0, 5⟩ = false ∧ CmdFields.rsvOk ⟨2, 0, 5⟩ = false ∧
    CmdFields.wf ⟨3, 0, 5⟩ = false ∧ CmdFields.wf ⟨0, 0, 5⟩ = true := by decide

/-- OP 0, 9 and 15 are refused (R93). -/
theorem test_wf_op : CmdFields.opOk ⟨0, 0, 0⟩ = false ∧ CmdFields.opOk ⟨0, 0, 9⟩ = false ∧
    CmdFields.wf ⟨0, 0, 15⟩ = false ∧ CmdFields.wf ⟨0, 0, 8⟩ = true := by decide

/-- SEL 2 for PARSE, 3 for RDC, 1 for BUILD, WRC, MRG, MSE, MSD are refused; 3 for DMX is not (R90, R94, R95). -/
theorem test_wf_sel : CmdFields.selOk ⟨0, 2, 1⟩ = false ∧ CmdFields.selOk ⟨0, 3, 3⟩ = false ∧
    CmdFields.selOk ⟨0, 1, 2⟩ = false ∧ CmdFields.selOk ⟨0, 1, 4⟩ = false ∧ CmdFields.selOk ⟨0, 1, 6⟩ = false ∧
    CmdFields.selOk ⟨0, 1, 7⟩ = false ∧ CmdFields.wf ⟨0, 1, 8⟩ = false ∧ CmdFields.wf ⟨0, 3, 5⟩ = true := by decide

/-- Each command's word as RSV, SEL and OP bits (30_encoding.md R92). -/
theorem test_decode_parse : decode (0b00#2 ++ 0b00#2 ++ 0b0001#4) = .ok .parseA ∧
    decode (0b00#2 ++ 0b01#2 ++ 0b0001#4) = .ok .parseB := by decide

theorem test_decode_build_wrc : decode (0b00#2 ++ 0b00#2 ++ 0b0010#4) = .ok .build ∧
    decode (0b00#2 ++ 0b00#2 ++ 0b0100#4) = .ok .wrc := by decide

theorem test_decode_rdc : decode (0b00#2 ++ 0b00#2 ++ 0b0011#4) = .ok .rdcA ∧
    decode (0b00#2 ++ 0b01#2 ++ 0b0011#4) = .ok .rdcB := by decide

theorem test_decode_dmx : decode (0b00#2 ++ 0b00#2 ++ 0b0101#4) = .ok .dmxL ∧
    decode (0b00#2 ++ 0b01#2 ++ 0b0101#4) = .ok .dmxR ∧ decode (0b00#2 ++ 0b10#2 ++ 0b0101#4) = .ok .dmxS ∧
    decode (0b00#2 ++ 0b11#2 ++ 0b0101#4) = .ok .dmxD := by decide

theorem test_decode_mrg_mse_msd : decode (0b00#2 ++ 0b00#2 ++ 0b0110#4) = .ok .mrg ∧
    decode (0b00#2 ++ 0b00#2 ++ 0b0111#4) = .ok .mse ∧ decode (0b00#2 ++ 0b00#2 ++ 0b1000#4) = .ok .msd := by decide

/-- V-I1 to V-I8: illegal words, rejected by name. -/
theorem test_decode_illegal : decode 0x00 = .error .reservedOpcode ∧ decode 0x09 = .error .reservedOpcode ∧
    decode 0x0F = .error .reservedOpcode ∧ decode 0x12 = .error .reservedSelect ∧ decode 0x21 = .error .reservedSelect ∧
    decode 0x33 = .error .reservedSelect ∧ decode 0x18 = .error .reservedSelect ∧ decode 0x45 = .error .reservedBits ∧
    decode 0xC5 = .error .reservedBits ∧ decode 0xFF = .error .reservedBits := by decide

/-- The `match` column of R92 again, from the encoder. -/
theorem test_encode : [Instr.parseA, .parseB, .build, .rdcA, .rdcB, .wrc, .dmxL, .dmxR, .dmxS, .dmxD, .mrg, .mse, .msd].map
    encode = [0x01, 0x11, 0x02, 0x03, 0x13, 0x04, 0x05, 0x15, 0x25, 0x35, 0x06, 0x07, 0x08] := by decide

theorem test_table_word : decodeTableWord 8 0x25 = some .dmxS ∧ decodeTableWord 8 0x20 = none := by decide

/-! ## One command on a small state -/

/-- HDR(2,44100,16,4) of 95_test_vectors.md. -/
def stereoHdr : List Byte :=
  [0x52, 0x49, 0x46, 0x46, 0x28, 0x00, 0x00, 0x00, 0x57, 0x41, 0x56, 0x45, 0x66, 0x6D, 0x74, 0x20,
   0x10, 0x00, 0x00, 0x00, 0x01, 0x00, 0x02, 0x00, 0x44, 0xAC, 0x00, 0x00, 0x10, 0xB1, 0x02, 0x00,
   0x04, 0x00, 0x10, 0x00, 0x64, 0x61, 0x74, 0x61, 0x04, 0x00, 0x00, 0x00]

/-- The reset state with a source buffer on both sides. -/
def sources (bs : List Byte) : State := { State.reset with sa := .ofBytes bs, sb := .ofBytes bs }

/-- The reset state with a format in HA and a payload in PA. -/
def payload (ch bps : BitVec 16) (bs : List Byte) : State :=
  { State.reset with ha := { HdrRegs.zero with ch := ch, bps := bps }, pa := .ofBytes bs }

/-- Mono 16 on both sides, with two payloads (the setup of V-M1). -/
def twoMono (x y : List Byte) : State :=
  { payload 1 16 x with hb := { HdrRegs.zero with ch := 1, bps := 16 }, pb := .ofBytes y }

/-- The four output parameters. -/
def params (ch rate bps ds : Nat) : State :=
  { State.reset with och := BitVec.ofNat 16 ch, orate := BitVec.ofNat 32 rate, obps := BitVec.ofNat 16 bps,
                     odsize := BitVec.ofNat 32 ds }

/-- STATUS and the contents of PO after a command. -/
def outAfter (i : Instr) (s : State) : Option (Nat × List Byte) :=
  match exec i s with
  | .next t => some (t.status.toNat, t.po.bytes)
  | _ => none

/-- STATUS and the bytes of OH from offset a to b after a command. -/
def headerAfter (i : Instr) (s : State) (a b : Nat) : Option (Nat × List Byte) :=
  match exec i s with
  | .next t => some (t.status.toNat, slice (t.readBuf .oh) a b)
  | _ => none

/-- STATUS and the numbers of a side's header registers, with a side's payload, after a command. -/
def sideAfter (i : Instr) (x : Side) (s : State) : Option (Nat × List Nat × List Byte) :=
  match exec i s with
  | .next t =>
    let h := t.hdr x
    let p := match x with | .a => t.pa | .b => t.pb
    some (t.status.toNat, [h.ch.toNat, h.rate.toNat, h.bps.toNat, h.dsize.toNat], p.bytes)
  | _ => none

/-- V-P9: the payload bytes are not read, and PARSE loads none. -/
theorem test_parseA : sideAfter .parseA .a (sources (stereoHdr ++ [0xEE, 0xEE])) = some (0x00, [2, 44100, 16, 4], []) := by
  decide

/-- V-P6: a format-chunk length of 18 is InvalidHeaderTag. -/
theorem test_parseA_fmtLen : sideAfter .parseA .a (sources (stereoHdr.set 16 0x12)) = some (0x12, [0, 0, 0, 0], []) := by
  decide

/-- V-P10: side B, channels 7, 12 bits. -/
theorem test_parseB : sideAfter .parseB .b (sources ((stereoHdr.set 22 0x07).set 34 0x0C))
    = some (0x00, [7, 44100, 12, 4], []) := by decide

/-- V-P8: "RIFX" in 30 bytes: the length is tested first. -/
theorem test_parseB_short : sideAfter .parseB .b (sources ((stereoHdr.set 3 0x58).take 30))
    = some (0x11, [0, 0, 0, 0], []) := by decide

/-- V-R3: 12 bytes declared, 4 present. -/
theorem test_rdcA_short : sideAfter .rdcA .a (sources (stereoHdr.set 40 0x0C ++ [0x64, 0x00, 0x32, 0x00]))
    = some (0x00, [2, 44100, 16, 12], [0x64, 0x00, 0x32, 0x00]) := by decide

/-- V-R2: 4 bytes declared, 5 present. -/
theorem test_rdcA_trailing : sideAfter .rdcA .a (sources (stereoHdr ++ [0x64, 0x00, 0x32, 0x00, 0xFF]))
    = some (0x00, [2, 44100, 16, 4], [0x64, 0x00, 0x32, 0x00]) := by decide

/-- V-R6, on a stereo header: 2 bytes declared and present. -/
theorem test_rdcB : sideAfter .rdcB .b (sources (stereoHdr.set 40 0x02 ++ [0x0A, 0x00]))
    = some (0x00, [2, 44100, 16, 2], [0x0A, 0x00]) := by decide

/-- V-R7: 43 bytes. -/
theorem test_rdcB_short : sideAfter .rdcB .b (sources (stereoHdr.take 43)) = some (0x11, [0, 0, 0, 0], []) := by decide

/-- V-B1: all 44 bytes. -/
theorem test_build : headerAfter .build (params 2 44100 16 4) 0 44 = some (0x00, stereoHdr) := by decide

/-- V-B6: riffSize = 2^32. -/
theorem test_build_overflow : headerAfter .build (params 1 1 8 0xFFFFFFDC) 0 4 = some (0x16, [0, 0, 0, 0]) := by decide

/-- V-W1: the data size comes from POLEN, ODSIZE 999 is ignored. -/
theorem test_wrc : headerAfter .wrc { params 1 44100 16 999 with po := .ofBytes [0x4B, 0x00] } 28 44
    = some (0x00, [0x88, 0x58, 0x01, 0x00, 0x02, 0x00, 0x10, 0x00, 0x64, 0x61, 0x74, 0x61, 0x02, 0x00, 0x00, 0x00]) := by
  decide

/-- V-W3: byteRate = 2^33. -/
theorem test_wrc_overflow : headerAfter .wrc (params 2 0x80000000 16 0) 0 4 = some (0x16, [0, 0, 0, 0]) := by decide

/-- The three frames (100, 50), (-100, 50), (-3, 0) and three trailing bytes (V-D17). -/
def threeFrames : List Byte := [0x64, 0x00, 0x32, 0x00, 0x9C, 0xFF, 0x32, 0x00, 0xFD, 0xFF, 0x00, 0x00, 0xAA, 0xBB, 0xCC]

/-- V-D20, left. -/
theorem test_dmxL : outAfter .dmxL (payload 2 16 threeFrames) = some (0x00, [0x64, 0x00, 0x9C, 0xFF, 0xFD, 0xFF]) := by
  decide

/-- V-D18: a mono format, PO unchanged. -/
theorem test_dmxL_format : outAfter .dmxL { payload 1 16 threeFrames with po := .ofBytes [0x4B, 0x00] }
    = some (0x13, [0x4B, 0x00]) := by decide

/-- V-D20, right. -/
theorem test_dmxR : outAfter .dmxR (payload 2 16 threeFrames) = some (0x00, [0x32, 0x00, 0x32, 0x00, 0x00, 0x00]) := by
  decide

/-- V-D17: 75, -25 and -2, rounding toward negative infinity. -/
theorem test_dmxS : outAfter .dmxS (payload 2 16 threeFrames) = some (0x00, [0x4B, 0x00, 0xE7, 0xFF, 0xFE, 0xFF]) := by
  decide

/-- V-D8: (-32768, -32768) needs a 17-bit sum. -/
theorem test_dmxS_extreme : outAfter .dmxS (payload 2 16 [0x00, 0x80, 0x00, 0x80]) = some (0x00, [0x00, 0x80]) := by decide

/-- V-D20, difference: 25, -75 and -2. -/
theorem test_dmxD : outAfter .dmxD (payload 2 16 threeFrames) = some (0x00, [0x19, 0x00, 0xB5, 0xFF, 0xFE, 0xFF]) := by
  decide

/-- V-D10: (-32768, 32767) needs a 17-bit difference. -/
theorem test_dmxD_extreme : outAfter .dmxD (payload 2 16 [0x00, 0x80, 0xFF, 0x7F]) = some (0x00, [0x00, 0x80]) := by decide

/-- V-M7: odd lengths, the last byte of each is dropped. -/
theorem test_mrg : outAfter .mrg (twoMono [0x01, 0x00, 0x02] [0x0A, 0x00, 0x0B]) = some (0x00, [0x01, 0x00, 0x0A, 0x00]) := by
  decide

/-- V-M3: different lengths. -/
theorem test_mrg_lengths : outAfter .mrg (twoMono [0x01, 0x00, 0x02, 0x00] [0x0A, 0x00]) = some (0x14, []) := by decide

/-- V-E16: three frames. -/
theorem test_mse : outAfter .mse (payload 2 16 threeFrames)
    = some (0x00, [0x19, 0x00, 0x4B, 0x00, 0xB5, 0xFF, 0xE7, 0xFF, 0xFE, 0xFF, 0xFE, 0xFF]) := by decide

/-- V-E10: (32767, -32768). -/
theorem test_mse_extreme : outAfter .mse (payload 2 16 [0xFF, 0x7F, 0x00, 0x80])
    = some (0x00, [0xFF, 0x7F, 0xFF, 0xFF]) := by decide

/-- V-X16 and V-X14: mid 65535 is unsigned, side is signed, and only large values are clamped. -/
theorem test_msd : outAfter .msd (payload 1 32 [0x00, 0x80, 0xFF, 0xFF, 0xFF, 0x7F, 0x00, 0x00])
    = some (0x00, [0xFF, 0x7F, 0xFF, 0x7F, 0xFF, 0x7F, 0x01, 0x80]) := by decide

/-- V-X17 and V-X18: EmptyPayload, but UnsupportedFormat first. -/
theorem test_msd_errors : outAfter .msd (payload 1 32 []) = some (0x15, []) ∧ outAfter .msd (payload 2 16 []) = some (0x13, []) := by
  decide

/-! ## The host's side -/

/-- V-I7: an illegal word from the command port. -/
theorem test_illegal_step : step { State.reset with pending := [.act (.cmd 0x45)] }
    = .next { State.reset with pos := 1, status := 0x17 } := rfl

/-- The word placed for the next step is the command that step runs. -/
theorem test_withFetchWord : step (State.reset.withFetchWord 8 0x08) = .next { State.reset with pos := 1, status := 0x13 } := rfl

/-- `WR ORATE, RD(HA.RATE)` (30_encoding.md R99). -/
theorem test_wr_rd : perform (.wr 0x11 (.rd 0x09)) { State.reset with ha := { HdrRegs.zero with rate := 44100 } }
    = .next { State.reset with ha := { HdrRegs.zero with rate := 44100 }, orate := 44100 } := rfl

/-- STOP-IF-ERR abandons the rest after a failure (30_encoding.md R100). -/
theorem test_stop_if_err : step { State.reset with status := 0x11, pending := [.stopIfErr, .act (.cmd 0x02)] }
    = .next { State.reset with status := 0x11, pos := 1 } := rfl

/-- The command bytes of P1 (95_test_vectors.md): 03 25 04. -/
theorem test_topDownmix : (topDownmix .midSum []).filterMap
    (fun l => match l with | .act (.cmd w) => some w | _ => none) = [0x03, 0x25, 0x04] := by decide

/-- Host accesses that are refused, one for each reason but the capacity (10_state.md R46, R47; 00_scope.md R9). -/
theorem test_refusals : perform (.rd 0x07) State.reset = .refused (.reservedRegister 7) ∧
    perform (.rd 0x00) State.reset = .refused (.notReadable .cmd) ∧
    perform (.wr 0x01 (.lit 0)) State.reset = .refused (.notWritable .status) ∧
    perform (.wr 0x10 (.lit 65536)) State.reset = .refused (.valueTooWide .och) ∧
    perform (.load .po []) State.reset = .refused (.notLoadable .po) := ⟨rfl, rfl, rfl, rfl, rfl⟩

/-! ## The hypotheses of the obligations are met -/

/-- A buffer of n bytes 0x00. -/
def zeros (n : Nat) : Buffer := ⟨BitVec.ofNat 32 n, []⟩

/-- A state that a failed command has left, with a script. -/
def failed (ls : List HostLine) : State := { State.reset with status := 0x11, pending := ls }

theorem witness_ResetLeavesEveryValueOfR48 : BufId.hbRaw = .oh ∨ BufId.hbRaw = .haRaw ∨ BufId.hbRaw = .hbRaw := by decide

theorem witness_CommandsStraightAfterReset :
    (Instr.msd = .dmxL ∨ Instr.msd = .dmxR ∨ Instr.msd = .dmxS ∨ Instr.msd = .dmxD ∨ Instr.msd = .mse ∨ Instr.msd = .msd) ∧
    (Instr.rdcB = .parseA ∨ Instr.rdcB = .parseB ∨ Instr.rdcB = .rdcA ∨ Instr.rdcB = .rdcB) ∧
    (Instr.wrc = .build ∨ Instr.wrc = .wrc) := by decide

theorem witness_DecodeAndEncodeAgree : Instr.msd.wf = true ∧ decode 0x35 = .ok .dmxD := by decide

/-- A word whose decoding is rejected decodes to no command. -/
theorem not_ok {w : Byte} {e : Illegal} (h : decode w = .error e) : ∀ i, decode w ≠ .ok i := fun i c => by
  rw [h] at c; cases c

/-- A corner of each of the classes of R97, and the legal words beside them. -/
theorem witness_IllegalWordsAreThoseOfR97 : (∀ i, decode 0x41 ≠ .ok i) ∧ (∀ i, decode 0x00 ≠ .ok i) ∧
    (∀ i, decode 0x09 ≠ .ok i) ∧ (∀ i, decode 0x12 ≠ .ok i) ∧ (∀ i, decode 0x21 ≠ .ok i) ∧ (∀ i, decode 0x23 ≠ .ok i) ∧
    decode 0x35 = .ok .dmxD ∧ decode 0x08 = .ok .msd ∧ decode 0x13 = .ok .rdcB :=
  ⟨not_ok (e := .reservedBits) rfl, not_ok (e := .reservedOpcode) rfl, not_ok (e := .reservedOpcode) rfl,
    not_ok (e := .reservedSelect) rfl, not_ok (e := .reservedSelect) rfl, not_ok (e := .reservedSelect) rfl, rfl, rfl, rfl⟩

theorem witness_StepRunsTheDecodedCommand :
    (failed [.act (.cmd 0x25), .stopIfErr]).pending = .act (.cmd 0x25) :: [.stopIfErr] ∧
    decode 0x25 = .ok .dmxS ∧ Instr.dmxS.wf = true := by decide

theorem witness_StepOnAnIllegalWordRaisesCodeSeven :
    (failed [.act (.cmd 0x45)]).pending = .act (.cmd 0x45) :: [] ∧ ∀ i, decode 0x45 ≠ .ok i :=
  ⟨rfl, not_ok (e := .reservedBits) rfl⟩

/-- The three clauses of PARSE.A at 43 and 44 bytes: too short, 44 bytes of 0x00, a header. -/
theorem witness_ParseAFollowsR121 : ({ State.reset with sa := zeros 43 } : State).sa.len.toNat < 44 ∧
    (44 ≤ ({ State.reset with sa := zeros 44 } : State).sa.len.toNat ∧
      ¬literalFields ({ State.reset with sa := zeros 44 } : State).sa.mem) ∧
    (44 ≤ (sources stereoHdr).sa.len.toNat ∧ literalFields (sources stereoHdr).sa.mem) := by
  unfold literalFields tags; decide

theorem witness_ParseBFollowsR122 : ({ State.reset with sb := zeros 43 } : State).sb.len.toNat < 44 ∧
    (44 ≤ ({ State.reset with sb := zeros 44 } : State).sb.len.toNat ∧
      ¬literalFields ({ State.reset with sb := zeros 44 } : State).sb.mem) ∧
    (44 ≤ (sources stereoHdr).sb.len.toNat ∧ literalFields (sources stereoHdr).sb.mem) := by
  unfold literalFields tags; decide

/-- The three clauses of RDC.A; in the third with one payload byte present and four declared, so that there is an
offset below the new PALEN. -/
theorem witness_RdcAFollowsR125 : ({ State.reset with sa := zeros 43 } : State).sa.len.toNat < 44 ∧
    (44 ≤ ({ State.reset with sa := zeros 44 } : State).sa.len.toNat ∧
      ¬literalFields ({ State.reset with sa := zeros 44 } : State).sa.mem) ∧
    (44 ≤ (sources (stereoHdr ++ [0x64])).sa.len.toNat ∧ literalFields (sources (stereoHdr ++ [0x64])).sa.mem) ∧
    min (word (sources (stereoHdr ++ [0x64])).sa.mem 40).toNat ((sources (stereoHdr ++ [0x64])).sa.len.toNat - 44) = 1 := by
  unfold literalFields tags; decide

theorem witness_RdcBFollowsR126 : ({ State.reset with sb := zeros 43 } : State).sb.len.toNat < 44 ∧
    (44 ≤ ({ State.reset with sb := zeros 44 } : State).sb.len.toNat ∧
      ¬literalFields ({ State.reset with sb := zeros 44 } : State).sb.mem) ∧
    (44 ≤ (sources (stereoHdr ++ [0x64])).sb.len.toNat ∧ literalFields (sources (stereoHdr ++ [0x64])).sb.mem) ∧
    min (word (sources (stereoHdr ++ [0x64])).sb.mem 40).toNat ((sources (stereoHdr ++ [0x64])).sb.len.toNat - 44) = 1 := by
  unfold literalFields tags; decide

/-- The bounds of the three computed fields, each met and each passed (V-B4, V-B6, V-B7, V-B8). -/
theorem witness_BuildFollowsR124 : fits 1 1 8 0xFFFFFFDB ∧ ¬fits 1 1 8 0xFFFFFFDC ∧ fits 2 0x3FFFFFFF 16 0 ∧
    ¬fits 2 0x40000000 16 0 ∧ fits 8 0 65535 0 ∧ ¬fits 16 0 32768 0 := by unfold fits; decide

theorem witness_WrcFollowsR127 :
    fits (params 1 1 8 0).och.toNat (params 1 1 8 0).orate.toNat (params 1 1 8 0).obps.toNat (zeros 0xFFFFFFDB).len.toNat ∧
    ¬fits (params 1 1 8 0).och.toNat (params 1 1 8 0).orate.toNat (params 1 1 8 0).obps.toNat
      (zeros 0xFFFFFFDC).len.toNat := by unfold fits; decide

theorem witness_BuildThenParseIsIdentity : 2 < 2 ^ 16 ∧ 44100 < 2 ^ 32 ∧ 16 < 2 ^ 16 ∧ 4 < 2 ^ 32 ∧
    buildHeader 2 44100 16 4 = .ok stereoHdr := by decide

/-- A header of audio format 3 and one whose riffSize is not 36 + dataSize: both parse, and both build. -/
theorem witness_ParseThenBuildIsNotIdentity :
    (parseHeader (stereoHdr.set 20 3) = .ok ⟨2, 44100, 16, 4, stereoHdr.set 20 3⟩ ∧ memRead (stereoHdr.set 20 3) 20 2 ≠ 1 ∧
      buildHeader 2 44100 16 4 = .ok stereoHdr) ∧
    (parseHeader (stereoHdr.set 4 0) = .ok ⟨2, 44100, 16, 4, stereoHdr.set 4 0⟩ ∧ memRead (stereoHdr.set 4 0) 4 4 ≠ 36 + 4) := by
  decide

/-- A short payload, and the longest one of the bound. -/
theorem witness_WrittenContainerReadsBack :
    (fits 1 44100 16 (Buffer.ofBytes [0x4B, 0x00]).len.toNat ∧ (Buffer.ofBytes [0x4B, 0x00]).len.toNat ≤ 2147483647) ∧
    (fits 1 44100 16 (zeros 2147483647).len.toNat ∧ (zeros 2147483647).len.toNat ≤ 2147483647) := by
  unfold fits; decide

/-- A format with one channel, one with 32 bits, and stereo 16 with no complete frame and with one. -/
theorem witness_DmxLeftFollowsR151 : ¬stereo16 (payload 1 16 []) ∧ ¬stereo16 (payload 2 32 []) ∧
    (stereo16 (payload 2 16 [1, 2, 3]) ∧ (payload 2 16 [1, 2, 3]).pa.len.toNat / 4 = 0) ∧
    (stereo16 (payload 2 16 [1, 2, 3, 4]) ∧ 0 < (payload 2 16 [1, 2, 3, 4]).pa.len.toNat / 4) := by
  unfold stereo16; decide

theorem witness_DmxRightFollowsR152 : ¬stereo16 (payload 3 16 []) ∧
    stereo16 (payload 2 16 threeFrames) ∧ 2 < (payload 2 16 threeFrames).pa.len.toNat / 4 := by unfold stereo16; decide

theorem witness_DmxMidSumFollowsR153 : ¬stereo16 (payload 2 8 []) ∧
    stereo16 (payload 2 16 threeFrames) ∧ 2 < (payload 2 16 threeFrames).pa.len.toNat / 4 := by unfold stereo16; decide

theorem witness_DmxMidDiffFollowsR154 : ¬stereo16 (payload 0 16 []) ∧
    stereo16 (payload 2 16 threeFrames) ∧ 2 < (payload 2 16 threeFrames).pa.len.toNat / 4 := by unfold stereo16; decide

theorem witness_HalvedSumAndDifferenceStayInRange :
    (-32768 : Int) ≤ -32768 ∧ (-32768 : Int) ≤ 32767 ∧ (32767 : Int) ≤ 32767 := by decide

/-- An even and an odd length. -/
theorem witness_DownmixRecoversMergedChannels :
    (([1, 2] : List Byte).length = ([3, 4] : List Byte).length ∧ ([1, 2] : List Byte).length % 2 = 0) ∧
    (([1, 2, 5] : List Byte).length = ([3, 4, 6] : List Byte).length ∧ ([1, 2, 5] : List Byte).length % 2 = 1) := by decide

theorem witness_MergeInterleavesUpToTheShorter :
    0 < min (([1, 2, 3, 4] : List Byte).length / 2) (([5, 6] : List Byte).length / 2) := by decide

/-- Each of the six conditions failing, and all holding: with two samples, and at the bound on PALEN. -/
theorem witness_MrgFollowsR171 : ¬mergeInputs (payload 2 16 []) ∧
    ¬mergeInputs { twoMono [] [] with hb := { HdrRegs.zero with ch := 2, bps := 16 } } ∧
    ¬mergeInputs { twoMono [] [] with ha := { HdrRegs.zero with ch := 1, bps := 32 } } ∧
    ¬mergeInputs { twoMono [] [] with hb := { HdrRegs.zero with ch := 1, bps := 32 } } ∧
    ¬mergeInputs { twoMono [] [] with hb := { HdrRegs.zero with ch := 1, bps := 16, rate := 1 } } ∧
    ¬mergeInputs (twoMono [1, 0, 2, 0] [3, 0]) ∧
    (mergeInputs (twoMono [1, 0, 2, 0] [3, 0, 4, 0]) ∧ 1 < (twoMono [1, 0, 2, 0] [3, 0, 4, 0]).pa.len.toNat / 2) ∧
    (mergeInputs { twoMono [] [] with pa := zeros 2147483647, pb := zeros 2147483647 } ∧
      (zeros 2147483647).len.toNat ≤ 2147483647) := by unfold mergeInputs; decide

theorem witness_MseFollowsR182 : ¬stereo16 (payload 1 32 []) ∧
    stereo16 (payload 2 16 threeFrames) ∧ 2 < (payload 2 16 threeFrames).pa.len.toNat / 4 := by unfold stereo16; decide

/-- An even sum and an odd one, at the ends of the range. -/
theorem witness_PackingLosesTheParityBit :
    ((-32768 : Int) + -32768) % 2 = 0 ∧ ((-32768 : Int) + 32767) % 2 = 1 ∧ (-32768 : Int) ≤ 32767 := by decide

/-- The format fails with an empty payload, holds with an empty one, with one byte, and with a complete sample. -/
theorem witness_MsdFollowsR192 : ¬((payload 2 16 []).ha.ch = 1 ∧ (payload 2 16 []).ha.bps = 32) ∧
    ((payload 1 32 []).ha.ch = 1 ∧ (payload 1 32 []).ha.bps = 32 ∧ (payload 1 32 []).pa.len = 0) ∧
    ((payload 1 32 [9]).ha.ch = 1 ∧ (payload 1 32 [9]).ha.bps = 32 ∧ (payload 1 32 [9]).pa.len ≠ 0) ∧
    0 < (payload 1 32 [9, 0, 1, 0]).pa.len.toNat / 4 := by decide

theorem witness_DecoderClampsOnlyUpward : (0x8000#16 ++ 0#16).getMsbD 0 = true ∧ (0x7FFF#16 ++ 0#16).getMsbD 0 = false := by
  decide

/-- A stereo payload with one frame of each of the three cases of R193: (100, 50), (3, 0), (-100, 50). -/
def roundTrip : State := payload 2 16 [0x64, 0x00, 0x32, 0x00, 0x03, 0x00, 0x00, 0x00, 0x9C, 0xFF, 0x32, 0x00]

theorem witness_EncodeThenDecodeIsTheThreeCasesOfR193 : stereo16 roundTrip ∧ 4 ≤ roundTrip.pa.len.toNat ∧
    2 < roundTrip.pa.len.toNat / 4 ∧
    (half roundTrip.pa.mem 0).toInt + (half roundTrip.pa.mem 2).toInt = 150 ∧
    (half roundTrip.pa.mem 4).toInt + (half roundTrip.pa.mem 6).toInt = 3 ∧
    (half roundTrip.pa.mem 8).toInt + (half roundTrip.pa.mem 10).toInt = -50 := by unfold stereo16; decide

/-- Payloads of different lengths that agree in frame 0. -/
theorem witness_OutputFramesDependOnTheirInputFrameOnly :
    (0 < min (([1, 2] : List Byte).length / 2) (([5, 6] : List Byte).length / 2) ∧
      0 < min (([1, 2, 3, 4] : List Byte).length / 2) (([5, 6, 7] : List Byte).length / 2) ∧
      ∀ j, j < 2 → ([1, 2] : List Byte)[2 * 0 + j]? = ([1, 2, 3, 4] : List Byte)[2 * 0 + j]? ∧
        ([5, 6] : List Byte)[2 * 0 + j]? = ([5, 6, 7] : List Byte)[2 * 0 + j]?) ∧
    (0 < ([1, 2, 3, 4] : List Byte).length / 4 ∧ 0 < ([1, 2, 3, 4, 5] : List Byte).length / 4 ∧
      ∀ j, j < 4 → ([1, 2, 3, 4] : List Byte)[4 * 0 + j]? = ([1, 2, 3, 4, 5] : List Byte)[4 * 0 + j]?) := by decide

theorem witness_ErrorsChangeStatusOnly :
    issueCommand 0x08 State.reset = .next { State.reset with status := 0x13 } ∧ statusErr 0x13 ≠ 0 := ⟨rfl, by decide⟩

theorem witness_ErrorMatrixIsR201 : exec .mrg State.reset = .next { State.reset with status := 0x14 } ∧
    (5 : BitVec 4) ∈ errorRow .msd ∧ (1 : BitVec 4) ∈ errorRow .parseA ∧
    issueCommand 0x00 State.reset = .next { State.reset with status := 0x17 } := ⟨rfl, by decide, by decide, rfl⟩

/-- A success that leaves STICKY, a failure that sets it, and a WR. -/
theorem witness_StatusIsWrittenAsR39Says :
    (∃ t, issueCommand 0x02 (failed []) = .next t ∧ statusErr t.status = 0 ∧ statusSticky t.status = 1) ∧
    (∃ t, issueCommand 0x45 State.reset = .next t ∧ statusErr t.status ≠ 0) ∧
    (notACommand (.wr 0x10 (.lit 1)) ∧ ∃ t, perform (.wr 0x10 (.lit 1)) (failed []) = .next t) ∧
    (notACommand (.read .oh) ∧ ∃ t, perform (.read .oh) (failed []) = .next t) :=
  ⟨⟨_, rfl, by decide, by decide⟩, ⟨_, rfl, by decide⟩, ⟨by unfold notACommand; decide, _, rfl⟩, ⟨trivial, _, rfl⟩⟩

theorem witness_NoCommandReadsStatus : ∃ t, issueCommand 0x02 (failed []) = .next t := ⟨_, rfl⟩

theorem witness_RepeatedFailureRepeats :
    issueCommand 0x01 State.reset = .next { State.reset with status := 0x11 } ∧ statusErr 0x11 ≠ 0 := ⟨rfl, by decide⟩

/-- Two states whose payload bytes differ. -/
theorem witness_ErrorsDoNotDependOnPayloadBytes : sameTests (payload 2 16 [1, 2, 3, 4]) (payload 2 16 [5, 6, 7, 8]) ∧
    (∃ t, issueCommand 0x08 (payload 2 16 [1, 2, 3, 4]) = .next t ∧ statusErr t.status = 3) ∧
    (∃ t, issueCommand 0x08 (payload 2 16 [5, 6, 7, 8]) = .next t) :=
  ⟨by unfold sameTests; decide, ⟨_, rfl, by decide⟩, ⟨_, rfl⟩⟩

theorem witness_OnlyResetClearsSticky : step (failed [.act (.cmd 0x01)]) = .next { failed [] with pos := 1 } ∧
    statusSticky (failed [.act (.cmd 0x01)]).status = 1 ∧
    (failed [.act (.cmd 0x01)]).pending.head? ≠ some (.act .reset) := ⟨rfl, by decide, by decide⟩

/-- A command other than those that write HA, HB, PA, PB and OH, and one that keeps PO. -/
theorem witness_CommandsWriteOnlyTheirOwnState : (∃ t, exec .mrg (twoMono [1, 0] [3, 0]) = .next t ∧ t.po.len = 4) ∧
    Instr.mrg ≠ .parseA ∧ Instr.mrg ≠ .rdcA ∧ Instr.mrg ≠ .parseB ∧ Instr.mrg ≠ .rdcB ∧ Instr.mrg ≠ .build ∧
    Instr.mrg ≠ .wrc ∧ (∃ t, exec .parseA (sources stereoHdr) = .next t ∧ t.ha.ch = 2) :=
  ⟨⟨_, rfl, by decide⟩, by decide, by decide, by decide, by decide, by decide, by decide, ⟨_, rfl, by decide⟩⟩

/-- A state with a header in SA, a failure recorded, and PARSE.A as its next line. -/
def loaded : State := { failed [.act (.cmd 0x01)] with sa := .ofBytes stereoHdr }

theorem loaded_inv : loaded.Inv := by
  have hs : loaded.sa.wf (bufCapacity .sa) = true := Buffer.wf_ofBytes _ _ (Nat.le_add_right 44 Config.CAP) (by decide)
  have he (n : Nat) : Buffer.empty.wf n = true := by simp [Buffer.empty, Buffer.wf, Memory.wf_nil]
  exact ⟨hs, he _, he _, he _, he _, rfl, rfl, rfl, by decide⟩

theorem witness_EveryStepKeepsTheInvariant : loaded.Inv ∧ ∃ t, step loaded = .next t ∧ t.ha.rate = 44100 :=
  ⟨loaded_inv, _, rfl, by decide⟩

theorem witness_InvariantBoundsEveryLength : loaded.Inv ∧ loaded.sa.len = 44 := ⟨loaded_inv, by decide⟩

/-- Exactly the capacity, one byte more, and the buffers that are not loadable. -/
theorem witness_LoadReplacesTheWholeBuffer :
    (List.replicate (44 + Config.CAP) (0xEE : Byte)).length ≤ bufCapacity .sa ∧
    bufCapacity .sa < (List.replicate (45 + Config.CAP) (0xEE : Byte)).length ∧
    (List.replicate Config.CAP (0xEE : Byte)).length ≤ bufCapacity .pb ∧
    bufCapacity .pb < (List.replicate (Config.CAP + 1) (0xEE : Byte)).length ∧
    BufId.pa ≠ .sa ∧ hostWritable .haCh ∧
    (BufId.oh = .po ∨ BufId.oh = .oh ∨ BufId.oh = .haRaw ∨ BufId.oh = .hbRaw) := by
  simp only [List.length_replicate, bufCapacity]
  exact ⟨Nat.le_refl _, by omega, Nat.le_refl _, by omega, by decide, trivial, by decide⟩

theorem witness_WriteThenReadGivesTheValue :
    (regOfNumber 0x08 = some .haCh ∧ hostWritable .haCh ∧ 65535 < 2 ^ regWidth .haCh ∧ Reg.haBps ≠ .haCh) ∧
    (regOfNumber 0x13 = some .odsize ∧ hostWritable .odsize ∧ 0xFFFFFFFF < 2 ^ regWidth .odsize) := by
  unfold hostWritable; decide

theorem witness_ReadsChangeNothingOfTheBlock : regOfNumber 0x01 = some .status ∧ (failed []).readReg .status = some 0x11 := by
  decide

/-- The reserved numbers 0x07 and 0x14, the read-only numbers 1 and 6, the first value too wide for OCH, and one too wide
for the read-only STATUS, where two clauses meet. -/
theorem witness_HostAccessesOutsideTheMapAreRefused : (7 = 7 ∨ 0x14 ≤ 7) ∧ (0x14 = 7 ∨ 0x14 ≤ 0x14) ∧ (1 ≤ 1 ∧ 1 ≤ 6) ∧
    (1 ≤ 6 ∧ 6 ≤ 6) ∧ (regOfNumber 0x10 = some .och ∧ 2 ^ regWidth .och ≤ 65536) ∧
    (regOfNumber 0x01 = some .status ∧ 2 ^ regWidth .status ≤ 32) := by decide

/-- WR STATUS, 32 meets two clauses: it is refused, and the reason named is the width (log entry 10). -/
theorem test_wr_status_too_wide : perform (.wr 0x01 (.lit 32)) State.reset = .refused (.valueTooWide .status) := rfl

theorem witness_WriteToCmdAndWriteOfAReadValue : 255 < 256 ∧ regOfNumber 0x01 = some .status ∧
    (failed []).readReg .status = some 0x11 := by decide

/-- A step with a command, a STOP-IF-ERR that ends the script, one that does not, and a script with no line. -/
theorem witness_EveryStepAdvancesThePosition : (∃ t, step (failed [.act (.cmd 0x02), .stopIfErr]) = .next t) ∧
    step (failed [.stopIfErr, .act (.cmd 0x02)]) = .next { failed [] with pos := 1 } ∧
    step { failed [.stopIfErr, .act (.cmd 0x02)] with status := 0x10 }
      = .next { failed [.act (.cmd 0x02)] with status := 0x10, pos := 1 } ∧
    (failed []).pending = [] := ⟨⟨_, rfl⟩, rfl, rfl, rfl⟩

theorem witness_StepCarriesOutTheNextLine :
    (failed [.act .reset, .stopIfErr]).pending = .act .reset :: [.stopIfErr] ∧
    (failed [.stopIfErr, .act .reset]).pending = .stopIfErr :: [.act .reset] ∧ decode 0x01 = .ok .parseA := by decide

/-- HA: 2, 44100, 16, 4; HB: 7, 8000, 12, 9: numbers that tell every register of the two sets apart. -/
def twoSets : State :=
  { failed [] with ha := ⟨2, 44100, 16, 4, []⟩, hb := ⟨7, 8000, 12, 9, []⟩ }

/-- The ends of the map and HA.CH, HB.CH in it, with numbers that are not in it: CMD, the reserved 0x07 and 0x14. -/
theorem witness_EachRegisterNumberReadsItsField : (0x01, 0x11) ∈ registerMap twoSets ∧ (0x08, 2) ∈ registerMap twoSets ∧
    (0x0C, 7) ∈ registerMap twoSets ∧ (0x13, 0) ∈ registerMap twoSets ∧ (∀ v, (0x00, v) ∉ registerMap twoSets) ∧
    (∀ v, (0x07, v) ∉ registerMap twoSets) ∧ (∀ v, (0x14, v) ∉ registerMap twoSets) := by
  refine ⟨by decide, by decide, by decide, by decide, ?_, ?_, ?_⟩ <;> simp [registerMap]

/-- The greatest value of HB.CH, the greatest of ODSIZE, and numbers that cannot be written: 1, 6, 7 and 0x14. -/
theorem witness_EachRegisterNumberWritesItsField :
    ((0x0C, 16, { twoSets with hb := ⟨65535, 8000, 12, 9, []⟩ }) ∈ writableMap twoSets 65535 ∧ 65535 < 2 ^ 16) ∧
    ((0x13, 32, { twoSets with odsize := 0xFFFFFFFF }) ∈ writableMap twoSets 0xFFFFFFFF ∧ 0xFFFFFFFF < 2 ^ 32) ∧
    (0x01 ≠ 0 ∧ ∀ k t, (0x01, k, t) ∉ writableMap twoSets 0) ∧ (0x06 ≠ 0 ∧ ∀ k t, (0x06, k, t) ∉ writableMap twoSets 0) ∧
    (0x07 ≠ 0 ∧ ∀ k t, (0x07, k, t) ∉ writableMap twoSets 0) ∧ (0x14 ≠ 0 ∧ ∀ k t, (0x14, k, t) ∉ writableMap twoSets 0) := by
  refine ⟨⟨by decide, by decide⟩, ⟨by decide, by decide⟩, ?_, ?_, ?_, ?_⟩ <;> simp [writableMap]

/-- A buffer to read, and LOADs of exactly the capacities. -/
theorem witness_EachBufferIsReadAndLoadedInItsField : (BufId.pa, [1, 2]) ∈ bufferMap (payload 2 16 [1, 2]) ∧
    (List.replicate (44 + Config.CAP) (0xEE : Byte)).length ≤ 44 + Config.CAP ∧
    (List.replicate Config.CAP (0xEE : Byte)).length ≤ Config.CAP := by
  simp only [List.length_replicate]
  exact ⟨by decide, Nat.le_refl _, Nat.le_refl _⟩

end Sys2Proof.Tests
end

