-- ==== Sys2Proof/Proofs/Scope.lean ====
section
/-!
PROOFS. The claims from spec/00_scope.md: floor halving as a 17-bit datapath (R14, R156), and the bounds that CAP puts
on the length registers (R6, R31).
-/

namespace Sys2Proof.Machine

/-- The datapath of R156, for any integer: its residue mod 2^17 without bit 0 is the floored half mod 2^16. -/
theorem u16_fdiv2_eq_extract (x : Int) :
    BitVec.ofNat 16 (u16 (fdiv2 x)) = (BitVec.ofInt 17 x).extractLsb' 1 16 := by
  apply BitVec.eq_of_toNat_eq
  simp only [BitVec.toNat_ofNat, BitVec.extractLsb'_toNat, BitVec.toNat_ofInt, Nat.shiftRight_eq_div_pow, u16, fdiv2]
  omega

/-- Sign extension keeps the value, so the wide sum is the residue of the sum of the values. -/
theorem signExtend_add_signExtend (n : Nat) {w : Nat} (l r : BitVec w) :
    l.signExtend n + r.signExtend n = BitVec.ofInt n (l.toInt + r.toInt) :=
  (BitVec.ofInt_add ..).symm

/-- Sign extension keeps the value, so the wide difference is the residue of the difference of the values. -/
theorem signExtend_sub_signExtend (n : Nat) {w : Nat} (l r : BitVec w) :
    l.signExtend n - r.signExtend n = BitVec.ofInt n (l.toInt - r.toInt) := by
  rw [Int.sub_eq_add_neg, BitVec.ofInt_add, BitVec.ofInt_neg, BitVec.sub_eq_add_neg]
  rfl

/-- Truncation toward zero is the floor, except on the negative odd numbers, where it is one more. -/
theorem tdiv_two_eq_fdiv2 (x : Int) : Int.tdiv x 2 = fdiv2 x + if x < 0 ∧ x % 2 = 1 then 1 else 0 := by
  rw [Int.tdiv_eq_ediv, Int.sign_eq_one_of_pos two_pos, fdiv2]
  split <;> split <;> omega

theorem fdiv2_ne_tdiv_iff (x : Int) : fdiv2 x ≠ Int.tdiv x 2 ↔ x < 0 ∧ x % 2 = 1 := by
  rw [tdiv_two_eq_fdiv2]
  split <;> omega

theorem Buffer.len_le_of_wf {n : Nat} {x : Buffer} (h : x.wf n = true) : x.len.toNat ≤ n := by
  rw [Buffer.wf, Bool.and_eq_true, decide_eq_true_eq] at h
  exact h.2

end Sys2Proof.Machine

namespace Sys2Proof.Proofs

open Sys2Proof.Machine

/-- Settles O24: the wide sum and difference are residues mod 2^17, on which dropping bit 0 is the floored half. -/
theorem floorIsTheSeventeenBitDatapath : Obligations.FloorIsTheSeventeenBitDatapath := by
  refine ⟨fun l r => ⟨?sum, ?difference⟩, fdiv2_ne_tdiv_iff, rfl⟩
  case sum => rw [signExtend_add_signExtend, u16_fdiv2_eq_extract]
  case difference => rw [signExtend_sub_signExtend, u16_fdiv2_eq_extract]

/-- Settles O44: a canonical buffer's length is within its capacity, and R6 bounds CAP. -/
theorem invariantBoundsEveryLength : Obligations.InvariantBoundsEveryLength := by
  intro s hs
  have hcap := config_cap_le
  exact ⟨Buffer.len_le_of_wf hs.sa, Buffer.len_le_of_wf hs.sb, Buffer.len_le_of_wf hs.pa, Buffer.len_le_of_wf hs.pb,
    Buffer.len_le_of_wf hs.po, hcap, by omega⟩

end Sys2Proof.Proofs
end

