-- ==== Sys2Proof/Proofs/State.lean ====
section
/-!
PROOFS. The claims from spec/10_state.md: what reset leaves (R48), and each command straight after reset (R49). The
commands' error rules and the header's bytes are stated for every state; reset only meets their conditions.
-/

namespace Sys2Proof.Machine

/-- A memory with no cell reads as 0x00 everywhere, as HA.RAW, HB.RAW and OH do after reset (R48). -/
theorem Memory.bytes_nil (n : Nat) : Memory.bytes [] n = List.replicate n 0 := by
  simp [Memory.bytes, List.eq_replicate_iff, Memory.read_nil, Memory.unlisted]

/-- Bytes exist only below the length register (R33). -/
theorem Buffer.bytes_of_len_eq_zero {x : Buffer} (h : x.len = 0) : x.bytes = [] := by
  rw [Buffer.bytes, h]
  rfl

/-- PARSE of a source shorter than a header (40_headercodec.md R121, R122). -/
theorem parseSide_of_short {x : Side} {s : State} (h : (s.source x).len.toNat < 44) :
    parseSide x s = .next (s.raise .invalidHeaderLength) := by
  rcases parseSide_cases x s with ⟨e, _⟩ | ⟨_, hl⟩ | ⟨_, _, hl, _⟩
  · exact e
  · exact absurd h (Nat.not_lt.mpr hl)
  · exact absurd h (Nat.not_lt.mpr hl)

/-- RDC of a source shorter than a header (40_headercodec.md R125, R126). -/
theorem readSide_of_short {x : Side} {s : State} (h : (s.source x).len.toNat < 44) :
    readSide x s = .next (s.raise .invalidHeaderLength) := by
  rcases readSide_cases x s with ⟨e, _⟩ | ⟨_, hl⟩ | ⟨_, _, hl, _⟩
  · exact e
  · exact absurd h (Nat.not_lt.mpr hl)
  · exact absurd h (Nat.not_lt.mpr hl)

theorem writeHeader_of_fits {ds : Nat} {s : State} (h : headerFits s.och.toNat s.orate.toNat s.obps.toNat ds) :
    writeHeader ds s = .next (s.setOutHeader (headerBytes s.och.toNat s.orate.toNat s.obps.toNat ds)).succeed := by
  rw [writeHeader, buildHeader_fits h]

theorem runDownmix_of_not_stereo16 {sel : Sel} {s : State} (h : ¬s.isStereo16) :
    runDownmix sel s = .next (s.raise .unsupportedFormat) := if_neg h

theorem execMrg_of_not_mergeable {s : State} (h : ¬s.mergeable) : execMrg s = .next (s.raise .mismatchedInputs) :=
  if_neg h

theorem execMse_of_not_stereo16 {s : State} (h : ¬s.isStereo16) : execMse s = .next (s.raise .unsupportedFormat) :=
  if_neg h

theorem execMsd_of_not_coded32 {s : State} (h : ¬s.isCoded32) : execMsd s = .next (s.raise .unsupportedFormat) :=
  if_neg h

end Sys2Proof.Machine

namespace Sys2Proof.Claims

open Sys2Proof.Machine

/-- A byte put below a bit vector, by value. -/
theorem toNat_append_byte {n : Nat} (x : BitVec n) (b : Byte) : (x ++ b).toNat = x.toNat * 256 + b.toNat := by
  rw [BitVec.toNat_append, ← Nat.shiftLeft_add_eq_or_of_lt b.isLt, Nat.shiftLeft_eq]

/-- Two stored bytes of v are the 16-bit field v (20_memory.md R62). -/
theorem half_ofBytes {bs : List Byte} {a v : Nat} (h0 : bs.getD a 0 = BitVec.ofNat 8 v)
    (h1 : bs.getD (a + 1) 0 = BitVec.ofNat 8 (v / 256)) : half (Memory.ofBytes bs) a = BitVec.ofNat 16 v := by
  apply BitVec.eq_of_toNat_eq
  simp only [half, Memory.read_ofBytes, Memory.unlisted, h0, h1, toNat_append_byte, BitVec.toNat_ofNat]
  omega

/-- Four stored bytes of v are the 32-bit field v (20_memory.md R62). -/
theorem word_ofBytes {bs : List Byte} {a v : Nat} (h0 : bs.getD a 0 = BitVec.ofNat 8 v)
    (h1 : bs.getD (a + 1) 0 = BitVec.ofNat 8 (v / 256)) (h2 : bs.getD (a + 2) 0 = BitVec.ofNat 8 (v / 65536))
    (h3 : bs.getD (a + 3) 0 = BitVec.ofNat 8 (v / 16777216)) : word (Memory.ofBytes bs) a = BitVec.ofNat 32 v := by
  apply BitVec.eq_of_toNat_eq
  simp only [word, Memory.read_ofBytes, Memory.unlisted, h0, h1, h2, h3, toNat_append_byte, BitVec.toNat_ofNat]
  omega

/-- Nothing is listed beyond a byte sequence that was stored. -/
theorem endsAt_ofBytes (bs : List Byte) : endsAt (Memory.ofBytes bs) bs.length := fun a h => by
  rw [Memory.read_ofBytes, List.getD_eq_default _ _ h]
  rfl

/-- The header cell by cell: the byte at each offset of 20_memory.md R66. -/
theorem headerBytes_cells (ch rate bps ds : Nat) : headerBytes ch rate bps ds =
    [0x52, 0x49, 0x46, 0x46,
      BitVec.ofNat 8 (riffSize ds), BitVec.ofNat 8 (riffSize ds / 256),
      BitVec.ofNat 8 (riffSize ds / 65536), BitVec.ofNat 8 (riffSize ds / 16777216),
      0x57, 0x41, 0x56, 0x45,
      0x66, 0x6D, 0x74, 0x20, 0x10, 0, 0, 0,
      1, 0, BitVec.ofNat 8 ch, BitVec.ofNat 8 (ch / 256),
      BitVec.ofNat 8 rate, BitVec.ofNat 8 (rate / 256),
      BitVec.ofNat 8 (rate / 65536), BitVec.ofNat 8 (rate / 16777216),
      BitVec.ofNat 8 (byteRate ch rate bps), BitVec.ofNat 8 (byteRate ch rate bps / 256),
      BitVec.ofNat 8 (byteRate ch rate bps / 65536), BitVec.ofNat 8 (byteRate ch rate bps / 16777216),
      BitVec.ofNat 8 (blockAlign ch bps), BitVec.ofNat 8 (blockAlign ch bps / 256),
      BitVec.ofNat 8 bps, BitVec.ofNat 8 (bps / 256),
      0x64, 0x61, 0x74, 0x61,
      BitVec.ofNat 8 ds, BitVec.ofNat 8 (ds / 256), BitVec.ofNat 8 (ds / 65536), BitVec.ofNat 8 (ds / 16777216)] := by
  simp only [headerBytes, tagRIFF, tagWAVE, tagFmt, tagData, leBytes_two, leBytes_four, List.cons_append,
    List.nil_append]
  rfl

theorem tags_headerBytes (ch rate bps ds : Nat) : tags (Memory.ofBytes (headerBytes ch rate bps ds)) := by
  simp only [tags, Memory.read_ofBytes, headerBytes_cells]
  exact ⟨rfl, rfl, rfl, rfl, rfl, rfl, rfl, rfl, rfl, rfl, rfl, rfl, rfl, rfl, rfl, rfl⟩

/-- Every field of the header that is built stands at its offset (20_memory.md R66; 40_headercodec.md R123). The bounds
are needed for the three computed fields only: the others come from registers of their own widths. -/
theorem isHeader_headerBytes {ch : BitVec 16} {rate : BitVec 32} {bps : BitVec 16} {ds : BitVec 32}
    (h : headerFits ch.toNat rate.toNat bps.toNat ds.toNat) :
    isHeader (Memory.ofBytes (headerBytes ch.toNat rate.toNat bps.toNat ds.toNat)) ch rate bps ds := by
  have hend := endsAt_ofBytes (headerBytes ch.toNat rate.toNat bps.toNat ds.toNat)
  rw [headerBytes_length] at hend
  have htags := tags_headerBytes ch.toNat rate.toNat bps.toNat ds.toNat
  rw [headerBytes_cells] at htags hend ⊢
  obtain ⟨hrate, halign, hsize⟩ := h
  refine ⟨htags, ?riffSize, word_ofBytes rfl rfl rfl rfl, half_ofBytes rfl rfl, ?channels, ?sampleRate, ?byteRate,
    ?blockAlign, ?bitsPerSample, ?dataSize, hend⟩
  case riffSize =>
    rw [word_ofBytes (v := riffSize ds.toNat) rfl rfl rfl rfl, BitVec.toNat_ofNat]
    exact Nat.mod_eq_of_lt (Nat.lt_succ_of_le hsize)
  case byteRate =>
    rw [word_ofBytes (v := byteRate ch.toNat rate.toNat bps.toNat) rfl rfl rfl rfl, BitVec.toNat_ofNat]
    exact Nat.mod_eq_of_lt (Nat.lt_succ_of_le hrate)
  case blockAlign =>
    rw [half_ofBytes (v := blockAlign ch.toNat bps.toNat) rfl rfl, BitVec.toNat_ofNat]
    exact Nat.mod_eq_of_lt (Nat.lt_succ_of_le halign)
  case channels => exact (half_ofBytes (v := ch.toNat) rfl rfl).trans (by simp)
  case sampleRate => exact (word_ofBytes (v := rate.toNat) rfl rfl rfl rfl).trans (by simp)
  case bitsPerSample => exact (half_ofBytes (v := bps.toNat) rfl rfl).trans (by simp)
  case dataSize => exact (word_ofBytes (v := ds.toNat) rfl rfl rfl rfl).trans (by simp)

end Sys2Proof.Claims

namespace Sys2Proof.Proofs

open Sys2Proof.Machine Sys2Proof.Claims

/-- Settles O1: the registers are reset's own numbers, a buffer of length 0 has no bytes, and an empty memory reads as
bytes 0x00. -/
theorem resetLeavesEveryValueOfR48 : Obligations.ResetLeavesEveryValueOfR48 := by
  have hempty : Buffer.empty.bytes = [] := Buffer.bytes_of_len_eq_zero rfl
  refine ⟨⟨rfl, rfl, rfl, rfl, rfl⟩, ⟨hempty, hempty, hempty, hempty, hempty⟩, ⟨rfl, rfl, rfl, rfl⟩,
    ⟨rfl, rfl, rfl, rfl⟩, ⟨rfl, rfl, rfl, rfl⟩, ?headers, rfl⟩
  case headers => rintro x (rfl | rfl | rfl) <;> exact Memory.bytes_nil 44

/-- Settles O2: reset is neither stereo 16, nor coded 32, nor mergeable, its sources are shorter than a header, and a
header of zeros fits. -/
theorem commandsStraightAfterReset : Obligations.CommandsStraightAfterReset := by
  have hstereo : ¬State.reset.isStereo16 := by decide
  have hfits : headerFits 0 0 0 0 := by unfold headerFits; decide
  refine ⟨?format, execMrg_of_not_mergeable (by decide), ?header, ?build⟩
  case format =>
    rintro i (rfl | rfl | rfl | rfl | rfl | rfl)
    · exact runDownmix_of_not_stereo16 (sel := .left) hstereo
    · exact runDownmix_of_not_stereo16 (sel := .right) hstereo
    · exact runDownmix_of_not_stereo16 (sel := .midSum) hstereo
    · exact runDownmix_of_not_stereo16 (sel := .midDiff) hstereo
    · exact execMse_of_not_stereo16 hstereo
    · exact execMsd_of_not_coded32 (by decide)
  case header =>
    have hshort (x : Side) : (State.reset.source x).len.toNat < 44 := by cases x <;> decide
    rintro i (rfl | rfl | rfl | rfl)
    · exact parseSide_of_short (hshort .a)
    · exact parseSide_of_short (hshort .b)
    · exact readSide_of_short (hshort .a)
    · exact readSide_of_short (hshort .b)
  case build =>
    rintro i (rfl | rfl) <;> exact ⟨_, isHeader_headerBytes hfits, writeHeader_of_fits (s := .reset) hfits⟩

end Sys2Proof.Proofs
end

