-- ==== Sys2Proof/Proofs/Encoding.lean ====
section
/-!
PROOFS. The claims from spec/30_encoding.md: the table's words decode to their commands (R92), and the words outside it
(R97). Both go through the `match` column: a word is legal exactly when it stands there.
-/

namespace Sys2Proof.Machine

/-- The words differ from row to row, so each row is the one that its word finds (R91). -/
theorem decode_of_mem_opcodeTable : ∀ r ∈ opcodeTable, decode r.1 = .ok r.2 := by decide

/-- The decoder answers rows of the table only (R91). -/
theorem mem_opcodeTable_of_decode {w : Byte} {i : Instr} (h : decode w = .ok i) : (w, i) ∈ opcodeTable := by
  unfold decode at h
  split at h
  case h_1 r hr =>
    obtain rfl : r.1 = w := beq_iff_eq.mp (List.find?_some (p := fun r : Byte × Instr => r.1 == w) hr)
    cases h
    exact List.mem_of_find?_eq_some hr
  case h_2 => cases h

/-- The `match` column of R92, as numbers. -/
def matchWords : List Nat := opcodeTable.map fun r => r.1.toNat

theorem matchWords_eq :
    matchWords = [0x01, 0x11, 0x02, 0x03, 0x13, 0x04, 0x05, 0x15, 0x25, 0x35, 0x06, 0x07, 0x08] := rfl

theorem exists_decode_eq_ok_iff (w : Byte) : (∃ i, decode w = .ok i) ↔ w.toNat ∈ matchWords := by
  constructor
  case mp =>
    rintro ⟨i, h⟩
    exact List.mem_map.mpr ⟨(w, i), mem_opcodeTable_of_decode h, rfl⟩
  case mpr =>
    intro h
    obtain ⟨r, hr, hw⟩ := List.mem_map.mp h
    obtain rfl := BitVec.eq_of_toNat_eq hw
    exact ⟨r.2, decode_of_mem_opcodeTable r hr⟩

theorem decode_illegal_iff (w : Byte) : (∀ i, decode w ≠ .ok i) ↔ w.toNat ∉ matchWords := by
  rw [← exists_decode_eq_ok_iff, not_exists]

theorem decode_toBool (w : Byte) : (decode w).toBool = decide (w.toNat ∈ matchWords) := by
  rw [Bool.eq_iff_iff, decide_eq_true_iff, ← exists_decode_eq_ok_iff]
  cases decode w <;> simp [Except.toBool]

/-- The classes of R97, from `w = RSV * 64 + SEL * 16 + OP` (R90), opcode by opcode. -/
theorem not_mem_matchWords_iff (n : Nat) : n ∉ matchWords ↔
    (n / 64 ≠ 0 ∨ n % 16 = 0 ∨ 9 ≤ n % 16 ∨
      ((n % 16 = 2 ∨ n % 16 = 4 ∨ n % 16 = 6 ∨ n % 16 = 7 ∨ n % 16 = 8) ∧ n / 16 % 4 ≠ 0) ∨
      ((n % 16 = 1 ∨ n % 16 = 3) ∧ 2 ≤ n / 16 % 4)) := by
  have hfields : n = n / 64 * 64 + n / 16 % 4 * 16 + n % 16 := by omega
  have hsel : n / 16 % 4 < 4 := Nat.mod_lt _ (by decide)
  have hop : n % 16 < 16 := Nat.mod_lt _ (by decide)
  generalize n / 64 = rsv, n / 16 % 4 = sel, n % 16 = op at hfields hsel hop ⊢
  simp only [matchWords_eq, List.mem_cons, List.not_mem_nil, or_false]
  interval_cases op <;> omega

/-- Thirteen of the 256 words are in the column, because it repeats none. -/
theorem length_filter_not_mem_matchWords :
    ((List.range 256).filter fun n => !decide (n ∈ matchWords)).length = 243 := by
  have hlegal : ((List.range 256).filter (· ∈ matchWords)).Perm matchWords := by
    refine (List.perm_ext_iff_of_nodup (List.nodup_range.filter _) (by decide)).mpr fun n => ?_
    have hbound : ∀ n ∈ matchWords, n < 256 := by decide
    simpa using hbound n
  have hsplit := List.length_eq_length_filter_add (l := List.range 256) (· ∈ matchWords)
  rw [hlegal.length_eq, List.length_range] at hsplit
  have hthirteen : matchWords.length = 13 := rfl
  omega

/-- An illegal word changes STATUS only (R97): ERR 7 with STICKY set is 0x17 (10_state.md R39). -/
theorem issueCommand_of_illegal {w : Byte} {s : State} (h : ∀ i, decode w ≠ .ok i) :
    issueCommand w s = .next { s with status := 0x17#5 } := by
  rcases issueCommand_cases w s with ⟨i, hd, _⟩ | ⟨_, _, e⟩
  · exact absurd hd (h i)
  · exact e

end Sys2Proof.Machine

namespace Sys2Proof.Proofs

open Sys2Proof.Machine

/-- Settles O4: the thirteen words are the rows of the opcode table, in its order. -/
theorem decodeReadsTheWordsOfR92 : Obligations.DecodeReadsTheWordsOfR92 := by
  have h := decode_of_mem_opcodeTable
  simp only [opcodeTable, List.forall_mem_cons, List.not_mem_nil, false_imp_iff, implies_true, and_true] at h
  exact h

/-- Settles O6: the words outside the `match` column are the classes of R97, 256 less its thirteen. -/
theorem illegalWordsAreThoseOfR97 : Obligations.IllegalWordsAreThoseOfR97 := by
  refine ⟨fun w => (decode_illegal_iff w).trans (not_mem_matchWords_iff w.toNat), ?count,
    fun _ _ => issueCommand_of_illegal⟩
  case count =>
    rw [← length_filter_not_mem_matchWords]
    refine congrArg _ (List.filter_congr fun n hn => ?_)
    rw [decode_toBool, BitVec.toNat_ofNat, Nat.mod_eq_of_lt (List.mem_range.mp hn)]

end Sys2Proof.Proofs
end

