-- ==== Sys2Proof/Proofs/HeaderCodec.lean ====
section
/-!
PROOFS. The claims from spec/40_headercodec.md, with the error matrix of spec/60_exceptions.md R201. The parser reads a
byte sequence and the claims read cells: both see the same fields below the length, so a parse that succeeds gives the
header that stands at the start of the memory (`headerIn`), and a header that was built parses to its own arguments.
-/

namespace Sys2Proof.Machine

open Sys2Proof.Claims

/-- A slice of a memory's bytes, cell by cell. -/
theorem slice_bytes {m : Memory} {n b : Nat} (a : Nat) (h : b ≤ n) :
    slice (m.bytes n) a b = (List.range (b - a)).map fun i => m.read (a + i) := by
  apply List.ext_getElem
  case hl => simp [slice]; omega
  case h => simp [slice, Memory.bytes]

/-- A copy of a memory's first bytes reads as the memory. -/
theorem Memory.read_ofBytes_bytes {m : Memory} {n a : Nat} (h : a < n) :
    (Memory.ofBytes (m.bytes n)).read a = m.read a :=
  (Memory.read_ofBytes _ a).trans (Memory.getD_bytes m n a h _)

theorem half_ofBytes_bytes {m : Memory} {n a : Nat} (h : a + 2 ≤ n) :
    half (Memory.ofBytes (m.bytes n)) a = half m a := by
  simp (disch := omega) only [half, Memory.read_ofBytes_bytes]

theorem word_ofBytes_bytes {m : Memory} {n a : Nat} (h : a + 4 ≤ n) :
    word (Memory.ofBytes (m.bytes n)) a = word m a := by
  simp (disch := omega) only [word, Memory.read_ofBytes_bytes]

/-- A 16-bit field of a memory's bytes (20_memory.md R62). -/
theorem memRead_bytes_two {m : Memory} {n a : Nat} (h : a + 2 ≤ n) : memRead (m.bytes n) a 2 = (half m a).toNat := by
  rw [memRead_two, Memory.getD_bytes _ _ _ (by omega), Memory.getD_bytes _ _ _ (by omega), half, toNat_append_byte]
  omega

/-- A 32-bit field of a memory's bytes (20_memory.md R62). -/
theorem memRead_bytes_four {m : Memory} {n a : Nat} (h : a + 4 ≤ n) : memRead (m.bytes n) a 4 = (word m a).toNat := by
  rw [memRead_four, Memory.getD_bytes _ _ _ (by omega), Memory.getD_bytes _ _ _ (by omega),
    Memory.getD_bytes _ _ _ (by omega), Memory.getD_bytes _ _ _ (by omega), word]
  simp only [toNat_append_byte]
  omega

/-! ### PARSE and RDC -/

/-- The parser's test is that of the five literal fields (20_memory.md R68). -/
theorem literalsMatch_bytes_iff {m : Memory} {n : Nat} (h : 44 ≤ n) :
    literalsMatch (m.bytes n) = true ↔ literalFields m := by
  have hlen : word m 16 = 16 ↔ (word m 16).toNat = 16 := BitVec.toNat_inj.symm
  simp (disch := omega) only [literalsMatch, slice_bytes, memRead_bytes_four, literalFields, tags, hlen]
  simp [List.range_succ, tagRIFF, tagWAVE, tagFmt, tagData, and_assoc]

/-- The header that stands in the first 44 bytes of a memory (40_headercodec.md R120). -/
def headerIn (m : Memory) : Header :=
  ⟨(half m 22).toNat, (word m 24).toNat, (half m 34).toNat, (word m 40).toNat, m.bytes 44⟩

theorem parseHeader_bytes {m : Memory} {n : Nat} (h : 44 ≤ n) (hm : literalFields m) :
    parseHeader (m.bytes n) = .ok (headerIn m) := by
  rw [parseHeader_ok (by simpa using h) ((literalsMatch_bytes_iff h).mpr hm), headerIn]
  simp (disch := omega) only [memRead_bytes_two, memRead_bytes_four, slice_bytes]
  simp [Memory.bytes]

theorem parseHeader_bytes_of_not_literalFields {m : Memory} {n : Nat} (h : 44 ≤ n) (hm : ¬literalFields m) :
    parseHeader (m.bytes n) = .error .invalidHeaderTag :=
  parseHeader_tag (by simpa using h) (Bool.eq_false_iff.mpr fun c => hm ((literalsMatch_bytes_iff h).mp c))

/-- What a parse that succeeds has read, for any byte sequence laid out in a memory. -/
theorem parseHeader_bytes_eq_ok {m : Memory} {n : Nat} {h : Header} (hp : parseHeader (m.bytes n) = .ok h) :
    44 ≤ n ∧ literalFields m ∧ h = headerIn m := by
  rcases parseHeader_cases (m.bytes n) with ⟨_, e⟩ | ⟨_, _, e⟩ | ⟨hn, hl, _⟩
  · cases e.symm.trans hp
  · cases e.symm.trans hp
  · rw [Memory.bytes_length] at hn
    have hm := (literalsMatch_bytes_iff hn).mp hl
    exact ⟨hn, hm, (Except.ok.inj ((parseHeader_bytes hn hm).symm.trans hp)).symm⟩

/-- The header registers hold the parsed header: each field fits its register. -/
theorem headerOf_headerIn (m : Memory) : headerOf (headerIn m).regs m := by
  refine ⟨by simp [Header.regs, headerIn], by simp [Header.regs, headerIn], by simp [Header.regs, headerIn],
    by simp [Header.regs, headerIn], ?raw, ?rawEnd⟩
  case raw => exact fun a ha => Memory.read_ofBytes_bytes ha
  case rawEnd => exact fun a ha => endsAt_ofBytes (m.bytes 44) a (by simpa using ha)

theorem parseSide_of_error {x : Side} {s : State} {e : ErrKind} (h : parseHeader (s.source x).bytes = .error e) :
    parseSide x s = .next (s.raise e) := by rw [parseSide, h]

theorem parseSide_of_ok {x : Side} {s : State} {h : Header} (hp : parseHeader (s.source x).bytes = .ok h) :
    parseSide x s = .next (s.setHdr x h.regs).succeed := by rw [parseSide, hp]

theorem readSide_of_error {x : Side} {s : State} {e : ErrKind} (h : parseHeader (s.source x).bytes = .error e) :
    readSide x s = .next (s.raise e) := by rw [readSide, h]

theorem readSide_of_ok {x : Side} {s : State} {h : Header} (hp : parseHeader (s.source x).bytes = .ok h) :
    readSide x s = .next ((s.setHdr x h.regs).setPayload x (Buffer.ofBytes (payloadOf x s h))).succeed := by
  rw [readSide, hp]; rfl

/-- Success clears ERR and keeps bit 4 (10_state.md R39). -/
theorem statusOnSuccess_eq_okStatus (s : State) : statusOnSuccess s.status = okStatus s := by
  unfold okStatus
  generalize s.status = st
  revert st
  decide

/-- A command that has not written STATUS before it succeeds. -/
theorem State.succeed_eq {s t : State} (h : t.status = s.status) : t.succeed = { t with status := okStatus s } := by
  rw [State.succeed, h, statusOnSuccess_eq_okStatus]

/-- The payload is a slice of an existing source, so its length fits the length register. -/
theorem payloadOf_len {x : Side} {s : State} (h : Header) (hs : 44 ≤ (s.source x).len.toNat) :
    (Buffer.ofBytes (payloadOf x s h)).len.toNat = min h.dsize ((s.source x).len.toNat - 44) := by
  have hlt := (s.source x).len.isLt
  have hlen := payloadOf_length x s h hs
  rw [Buffer.ofBytes_len _ (by omega), hlen]

/-- Byte a of the payload is byte 44 + a of the source (40_headercodec.md R125). -/
theorem payloadOf_read {x : Side} {s : State} {h : Header} {a : Nat} (hs : 44 ≤ (s.source x).len.toNat)
    (ha : a < min h.dsize ((s.source x).len.toNat - 44)) :
    (Memory.ofBytes (payloadOf x s h)).read a = (s.source x).mem.read (44 + a) := by
  rw [Memory.read_ofBytes, payloadOf, Buffer.bytes, slice_bytes 44 (by omega), Nat.add_sub_cancel_left]
  simp [List.getD, ha]

/-- PARSE on either side (40_headercodec.md R121, R122). -/
theorem parses_of_parseSide (x : Side) {w : Byte} {i : Instr} (hw : decode w = .ok i)
    (hi : ∀ s, exec i s = parseSide x s) : parses w i (·.source x) (·.setHdr x ·) := by
  refine ⟨hw, fun s => ⟨fun hs => ?short, fun hs hm => ?tag, fun hs hm => ?parsed⟩⟩
  case short => exact (hi s).trans (parseSide_of_short hs)
  case tag => exact (hi s).trans (parseSide_of_error (parseHeader_bytes_of_not_literalFields hs hm))
  case parsed =>
    refine ⟨_, headerOf_headerIn (s.source x).mem, ?_⟩
    rw [hi, parseSide_of_ok (parseHeader_bytes hs hm), State.succeed_eq (State.setHdr_status ..)]

/-- RDC on either side (40_headercodec.md R125, R126). -/
theorem readsContainer_of_readSide (x : Side) {w : Byte} {i : Instr} (hw : decode w = .ok i)
    (hi : ∀ s, exec i s = readSide x s) :
    readsContainer w i (·.source x) fun s h p => (s.setHdr x h).setPayload x p := by
  refine ⟨hw, fun s => ⟨fun hs => ?short, fun hs hm => ?tag, fun hs hm => ?parsed⟩⟩
  case short => exact (hi s).trans (readSide_of_short hs)
  case tag => exact (hi s).trans (readSide_of_error (parseHeader_bytes_of_not_literalFields hs hm))
  case parsed =>
    have hlen := payloadOf_len (headerIn (s.source x).mem) hs
    refine ⟨_, Buffer.ofBytes (payloadOf x s (headerIn (s.source x).mem)), headerOf_headerIn (s.source x).mem, hlen,
      fun a ha => payloadOf_read hs (hlen ▸ ha), ?payloadEnd, ?next⟩
    case payloadEnd =>
      rw [hlen]
      exact payloadOf_length x s _ hs ▸ endsAt_ofBytes (payloadOf x s (headerIn (s.source x).mem))
    case next =>
      rw [hi, readSide_of_ok (parseHeader_bytes hs hm), State.succeed_eq (s := s) (by simp)]

/-! ### BUILD and WRC -/

theorem fits_iff_headerFits (ch rate bps ds : Nat) : fits ch rate bps ds ↔ headerFits ch rate bps ds := by
  unfold fits headerFits byteRate blockAlign riffSize fdiv8
  omega

theorem writeHeader_of_not_fits {ds : Nat} {s : State} (h : ¬headerFits s.och.toNat s.orate.toNat s.obps.toNat ds) :
    writeHeader ds s = .next (s.raise .fieldOverflow) := by
  rw [writeHeader, buildHeader_overflow h]

/-- A header that was built fits, and its bytes are the thirteen fields (40_headercodec.md R123). -/
theorem buildHeader_eq_ok {ch rate bps ds : Nat} {H : List Byte} (h : buildHeader ch rate bps ds = .ok H) :
    headerFits ch rate bps ds ∧ H = headerBytes ch rate bps ds := by
  by_cases hf : headerFits ch rate bps ds
  · exact ⟨hf, (Except.ok.inj ((buildHeader_fits hf).symm.trans h)).symm⟩
  · cases (buildHeader_overflow hf).symm.trans h

/-- BUILD and WRC, whatever the data size is taken from (40_headercodec.md R124, R127). -/
theorem buildsHeader_of_writeHeader {w : Byte} {i : Instr} {ds : State → BitVec 32} (hw : decode w = .ok i)
    (hi : ∀ s, exec i s = writeHeader (ds s).toNat s) : buildsHeader w i ds := by
  refine ⟨hw, fun s => ⟨fun hf => ?overflow, fun hf => ?built⟩⟩ <;> rw [fits_iff_headerFits] at hf
  case overflow => exact (hi s).trans (writeHeader_of_not_fits hf)
  case built =>
    refine ⟨_, isHeader_headerBytes hf, ?_⟩
    rw [hi, writeHeader_of_fits hf, State.succeed_eq (State.setOutHeader_status ..)]
    rfl

/-! ### Build and parse -/

/-- The bytes that are built, parsed again: every field reads back at its offset (40_headercodec.md R128). -/
theorem parseHeader_headerBytes {ch : BitVec 16} {rate : BitVec 32} {bps : BitVec 16} {ds : BitVec 32}
    (h : headerFits ch.toNat rate.toNat bps.toNat ds.toNat) :
    parseHeader (headerBytes ch.toNat rate.toNat bps.toNat ds.toNat)
      = .ok ⟨ch.toNat, rate.toNat, bps.toNat, ds.toNat, headerBytes ch.toNat rate.toNat bps.toNat ds.toNat⟩ := by
  obtain ⟨htags, _, hfmt, _, hch, hrate, _, _, hbps, hds, _⟩ := isHeader_headerBytes h
  have hbytes := Memory.bytes_ofBytes (headerBytes ch.toNat rate.toNat bps.toNat ds.toNat)
  rw [headerBytes_length] at hbytes
  have hparse := parseHeader_bytes (Nat.le_refl 44) ⟨htags, hfmt⟩
  rwa [headerIn, hch, hrate, hbps, hds, hbytes] at hparse

/-- A header that building from its own parsed values reproduces has the riffSize and the audio format that BUILD writes
(40_headercodec.md R129). -/
theorem riffSize_and_format_of_rebuilt {m : Memory}
    (h : buildHeader (half m 22).toNat (word m 24).toNat (half m 34).toNat (word m 40).toNat = .ok (m.bytes 44)) :
    (word m 4).toNat = 36 + (word m 40).toNat ∧ (half m 20).toNat = 1 := by
  obtain ⟨hfits, hbytes⟩ := buildHeader_eq_ok h
  obtain ⟨_, hsize, _, hformat, _⟩ := isHeader_headerBytes hfits
  rw [← hbytes] at hsize hformat
  rw [word_ofBytes_bytes (by decide)] at hsize
  rw [half_ofBytes_bytes (by decide)] at hformat
  exact ⟨hsize, congrArg BitVec.toNat hformat⟩

/-! ### The error matrix -/

/-- The codes of a command's row of R201 are those of its errors. -/
theorem errorRow_eq (i : Instr) : errorRow i = (commandErrors i).map fun e => BitVec.ofNat 4 e.code := by
  cases i <;> rfl

/-- A state that meets the condition of an error: reset for those it meets (10_state.md R49); sources of 44 bytes 0x00
for the tags; a byteRate of 2^33 for the overflow; coded 32 without a payload. -/
def failingState : ErrKind → State
  | .invalidHeaderTag => { State.reset with sa := ⟨44, []⟩, sb := ⟨44, []⟩ }
  | .fieldOverflow => { State.reset with och := 2, orate := 0x80000000, obps := 16 }
  | .emptyPayload => { State.reset with ha := { HdrRegs.zero with ch := 1, bps := 32 } }
  | _ => State.reset

/-- Each error of a command's row happens: the command, run in the error's state, raises it. -/
theorem exec_failingState (i : Instr) :
    ∀ e ∈ commandErrors i, exec i (failingState e) = .next ((failingState e).raise e) := by
  cases i
  case parseA | parseB | rdcA | rdcB | msd =>
    exact List.forall_mem_cons.mpr ⟨rfl, List.forall_mem_singleton.mpr rfl⟩
  all_goals exact List.forall_mem_singleton.mpr rfl

/-- A command ends with ERR 0 or with a code of its row. -/
theorem statusErr_of_exec {i : Instr} {s t : State} (h : exec i s = .next t) :
    statusErr t.status = 0 ∨ statusErr t.status ∈ errorRow i := by
  rcases exec_cases i s with ⟨e, he, h'⟩ | ⟨u, h', hu⟩ <;> cases h'.symm.trans h
  · obtain ⟨hcode, _⟩ := statusOnError_fields e
    refine .inr ?_
    rw [errorRow_eq, State.raise_status, hcode]
    exact List.mem_map_of_mem he
  · rw [commandResult_status hu]
    exact .inl (statusOnSuccess_fields s.status).left

/-- No command has IllegalCommand in its row. -/
theorem seven_not_mem_errorRow (i : Instr) : 7 ∉ errorRow i := by cases i <;> decide

end Sys2Proof.Machine

namespace Sys2Proof.Proofs

open Sys2Proof.Machine Sys2Proof.Claims

/-- Settles O10: side A of PARSE. -/
theorem parseAFollowsR121 : Obligations.ParseAFollowsR121 := parses_of_parseSide .a rfl fun _ => rfl

/-- Settles O11: side B of PARSE. -/
theorem parseBFollowsR122 : Obligations.ParseBFollowsR122 := parses_of_parseSide .b rfl fun _ => rfl

/-- Settles O12: side A of RDC. -/
theorem rdcAFollowsR125 : Obligations.RdcAFollowsR125 := readsContainer_of_readSide .a rfl fun _ => rfl

/-- Settles O13: side B of RDC. -/
theorem rdcBFollowsR126 : Obligations.RdcBFollowsR126 := readsContainer_of_readSide .b rfl fun _ => rfl

/-- Settles O14: BUILD writes a header with ODSIZE. -/
theorem buildFollowsR124 : Obligations.BuildFollowsR124 := buildsHeader_of_writeHeader rfl fun _ => rfl

/-- Settles O15: WRC writes a header with POLEN. -/
theorem wrcFollowsR127 : Obligations.WrcFollowsR127 := buildsHeader_of_writeHeader rfl fun _ => rfl

/-- Settles O16: arguments within their widths are register values, and the header built from those reads back. -/
theorem buildThenParseIsIdentity : Obligations.BuildThenParseIsIdentity := by
  intro c r b d H hc hr hb hd hbuild
  obtain ⟨hfits, rfl⟩ := buildHeader_eq_ok hbuild
  refine ⟨headerBytes_length c r b d, ?_⟩
  have hparse := parseHeader_headerBytes (ch := BitVec.ofNat 16 c) (rate := BitVec.ofNat 32 r)
    (bps := BitVec.ofNat 16 b) (ds := BitVec.ofNat 32 d)
  simp only [BitVec.toNat_ofNat, Nat.mod_eq_of_lt, hc, hr, hb, hd] at hparse
  exact hparse hfits

/-- Settles O17: a rebuilt header has riffSize 36 + dataSize and format 1; a header whose riffSize was set to 0 parses
and builds, but is not rebuilt. -/
theorem parseThenBuildIsNotIdentity : Obligations.ParseThenBuildIsNotIdentity := by
  refine ⟨fun S H h hparse hfield hbuild hraw => ?differs, ?existence⟩
  case differs =>
    rw [← Memory.bytes_ofBytes S] at hparse hfield
    obtain ⟨hlen, _, rfl⟩ := parseHeader_bytes_eq_ok hparse
    subst hraw
    obtain ⟨hsize, hformat⟩ := riffSize_and_format_of_rebuilt hbuild
    rw [memRead_bytes_four (by omega), memRead_bytes_two (by omega)] at hfield
    exact hfield.elim (absurd hsize) (absurd hformat)
  case existence =>
    exact ⟨(headerBytes 2 44100 16 4).set 4 0, ⟨2, 44100, 16, 4, (headerBytes 2 44100 16 4).set 4 0⟩,
      headerBytes 2 44100 16 4, by decide, by decide, rfl⟩

/-- Settles O35: a command's errors are its row, each is raised from its failing state, and none is code 7, which an
illegal word raises. -/
theorem errorMatrixIsR201 : Obligations.ErrorMatrixIsR201 := by
  refine ⟨fun i s t => statusErr_of_exec, fun i k hk => ?happens, fun w s t h => ?seven⟩
  case happens =>
    rw [errorRow_eq] at hk
    obtain ⟨e, he, rfl⟩ := List.mem_map.mp hk
    obtain ⟨hcode, _⟩ := statusOnError_fields e
    exact ⟨failingState e, (failingState e).raise e, exec_failingState i e he, hcode⟩
  case seven =>
    rcases issueCommand_cases w s with ⟨i, hd, e⟩ | ⟨_, hd, e⟩
    · refine iff_of_false (fun h7 => ?_) fun hillegal => hillegal i hd
      rcases statusErr_of_exec (e.symm.trans h) with h0 | hrow
      · cases h0.symm.trans h7
      · exact seven_not_mem_errorRow i (h7 ▸ hrow)
    · cases e.symm.trans h
      obtain ⟨hcode, _⟩ := statusOnError_fields .illegalCommand
      exact iff_of_true hcode fun i hlegal => by cases hd.symm.trans hlegal

end Sys2Proof.Proofs
end

