-- ==== Sys2Proof/Proofs/Downmix.lean ====
section
/-!
PROOFS. The claims from spec/41_downmix.md, with the claim of spec/60_exceptions.md R205 that no error depends on a
payload byte. A down-mix loses nothing when it stores its sample, because a halved sum or difference of two int16 is an
int16 (R155); so each output field is the sample of its frame, and the sample of a merged frame is a channel's own.
-/

namespace Sys2Proof.Machine

open Sys2Proof.Claims

/-! ### Samples as signed numbers -/

/-- Half of a 17-bit number is a 16-bit number (41_downmix.md R155). -/
theorem fdiv2_range {x : Int} (h1 : -65536 ≤ x) (h2 : x ≤ 65535) : -32768 ≤ fdiv2 x ∧ fdiv2 x ≤ 32767 := by
  have h := fdiv2_spec x
  omega

/-- The mono sample of an int16 frame is an int16, whatever the selector (41_downmix.md R155). -/
theorem downmixFrame_range (sel : Sel) {f : Int × Int} (hl : -32768 ≤ f.1 ∧ f.1 ≤ 32767)
    (hr : -32768 ≤ f.2 ∧ f.2 ≤ 32767) : -32768 ≤ downmixFrame sel f ∧ downmixFrame sel f ≤ 32767 := by
  cases sel
  case left => exact hl
  case right => exact hr
  case midSum => exact fdiv2_range (by omega) (by omega)
  case midDiff => exact fdiv2_range (by omega) (by omega)

/-- s16 is the two's complement value of a 16-bit field (00_scope.md R13). -/
theorem s16_toNat (x : BitVec 16) : s16 x.toNat = x.toInt := by
  rw [BitVec.toInt_eq_toNat_cond, s16]
  split <;> split <;> omega

/-- An int16 that is stored as its u16 reads back as itself. -/
theorem toInt_ofNat_u16 {v : Int} (h : -32768 ≤ v ∧ v ≤ 32767) : (BitVec.ofNat 16 (u16 v)).toInt = v := by
  rw [← s16_toNat, BitVec.toNat_ofNat, Nat.mod_eq_of_lt (u16_lt v), s16_u16 v h.1 h.2]

/-- A stereo frame of a memory's bytes is its two 16-bit fields (20_memory.md R70). -/
theorem stereoFrame_bytes {m : Memory} {n k : Nat} (h : k < n / 4) :
    stereoFrame (m.bytes n) k = ((half m (4 * k)).toInt, (half m (4 * k + 2)).toInt) := by
  rw [stereoFrame, memRead_bytes_two (by omega), memRead_bytes_two (by omega), s16_toNat, s16_toNat]

/-! ### The four commands -/

/-- Each output field of a down-mix is the mono sample of its frame (41_downmix.md R150). -/
theorem half_downmix (sel : Sel) {P : List Byte} {k : Nat} (h : k < P.length / 4) :
    (half (Memory.ofBytes (downmix sel P)) (2 * k)).toInt = downmixFrame sel (stereoFrame P k) := by
  obtain ⟨hl, hr⟩ := stereoFrame_range P k
  rw [half_ofBytes (v := u16 (downmixFrame sel (stereoFrame P k))) ?low ?high,
    toInt_ofNat_u16 (downmixFrame_range sel hl hr)]
  case low => exact (downmix_getD sel P k 0 h (by decide) 0).trans (by rw [leBytes_two]; rfl)
  case high => exact (downmix_getD sel P k 1 h (by decide) 0).trans (by rw [leBytes_two]; rfl)

theorem isStereo16_iff (s : State) : s.isStereo16 ↔ stereo16 s := by simp [State.isStereo16, stereo16]

theorem runDownmix_of_stereo16 {sel : Sel} {s : State} (h : s.isStereo16) :
    runDownmix sel s = .next (s.setOut (downmix sel s.pa.bytes)).succeed := if_pos h

/-- A DMX command with any selector, f saying what the selector computes (41_downmix.md R151 to R154). -/
theorem downmixes_of_runDownmix (sel : Sel) {w : Byte} {i : Instr} {f : Int → Int → Int} (hw : decode w = .ok i)
    (hi : ∀ s, exec i s = runDownmix sel s) (hf : ∀ l r, downmixFrame sel (l, r) = f l r) : downmixes w i f := by
  refine ⟨hw, fun s => ⟨fun hs => ?format, fun hs => ?mixed⟩⟩ <;> rw [← isStereo16_iff] at hs
  case format => exact (hi s).trans (runDownmix_of_not_stereo16 hs)
  case mixed =>
    have hbound := s.pa.len.isLt
    have hlen : (downmix sel s.pa.bytes).length = 2 * (s.pa.len.toNat / 4) := by
      rw [downmix_length, Buffer.bytes_length, Nat.mul_comm]
    have hpo : (Buffer.ofBytes (downmix sel s.pa.bytes)).len.toNat = 2 * (s.pa.len.toNat / 4) := by
      rw [Buffer.ofBytes_len _ (by omega), hlen]
    refine ⟨Buffer.ofBytes (downmix sel s.pa.bytes), hpo, ?outEnd, fun k hk => ?sample, ?next⟩
    case outEnd => exact hpo ▸ hlen ▸ endsAt_ofBytes (downmix sel s.pa.bytes)
    case sample =>
      rw [Buffer.ofBytes_mem, half_downmix sel (by rwa [Buffer.bytes_length]), Buffer.bytes, stereoFrame_bytes hk, hf]
    case next => rw [hi, runDownmix_of_stereo16 hs, State.succeed_eq (State.setOut_status ..)]; rfl

/-! ### Down-mixing a merged stream -/

/-- The two bytes of a sample that was read are the bytes it was read from. -/
theorem leBytes_memRead_two (X : List Byte) (a : Nat) :
    leBytes 2 (memRead X a 2) = [X.getD a 0, X.getD (a + 1) 0] := by
  have hlow := (X.getD a 0).isLt
  have hhigh := (X.getD (a + 1) 0).isLt
  rw [leBytes_two, memRead_two]
  congr 2 <;> apply BitVec.eq_of_toNat_eq <;> rw [BitVec.toNat_ofNat] <;> omega

/-- The first n samples of a byte sequence, each read and stored again, are its first 2n bytes. -/
theorem flatMap_samples_eq_take {X : List Byte} {n : Nat} (h : 2 * n ≤ X.length) :
    ((List.range n).flatMap fun i => leBytes 2 (memRead X (2 * i) 2)) = X.take (2 * n) := by
  induction n with
  | zero => rfl
  | succ n ih =>
    have hlow : 2 * n < X.length := by omega
    have hhigh : 2 * n + 1 < X.length := by omega
    rw [List.range_succ, List.flatMap_append, ih (by omega), List.flatMap_singleton, leBytes_memRead_two, Nat.mul_succ,
      List.take_add_one, List.take_add_one, List.append_assoc]
    simp [hlow, hhigh]

/-- A down-mix whose samples are those of a byte sequence Z is Z without a trailing byte that is no sample. -/
theorem downmix_eq_take {sel : Sel} {P Z : List Byte} (hlen : P.length / 4 = Z.length / 2)
    (h : ∀ i < P.length / 4, downmixFrame sel (stereoFrame P i) = s16 (memRead Z (2 * i) 2)) :
    downmix sel P = Z.take (2 * (Z.length / 2)) := by
  rw [← flatMap_samples_eq_take (Nat.mul_div_le Z.length 2), ← hlen, downmix]
  refine List.flatMap_congr fun i hi => ?_
  rw [h i (List.mem_range.mp hi), u16_s16 _ (memRead_two_lt Z _)]

/-- A frame of a merged stream is the sample of X, then the sample of Y (42_merge.md R170). -/
theorem stereoFrame_merge {X Y : List Byte} {i : Nat} (h : i < min (X.length / 2) (Y.length / 2)) :
    stereoFrame (merge X Y) i = (s16 (memRead X (2 * i) 2), s16 (memRead Y (2 * i) 2)) := by
  have cell (j : Nat) (hj : j < 4) := merge_getD X Y i j h hj 0
  simp only [stereoFrame, memRead_two, Nat.add_assoc, Nat.reduceAdd, cell 1 (by decide), cell 2 (by decide),
    cell 3 (by decide), show (merge X Y).getD (4 * i) 0 = _ from cell 0 (by decide)]
  rfl

/-- The Left and the Right down-mix of a merge are its two inputs, up to a trailing byte (41_downmix.md R157). -/
theorem downmix_merge {X Y : List Byte} (h : X.length = Y.length) :
    downmix .left (merge X Y) = X.take (2 * (X.length / 2)) ∧
      downmix .right (merge X Y) = Y.take (2 * (Y.length / 2)) := by
  have hmin : min (X.length / 2) (Y.length / 2) = X.length / 2 := by rw [h, Nat.min_self]
  have hframes : (merge X Y).length / 4 = X.length / 2 := by rw [merge_length, hmin, Nat.mul_div_cancel _ (by decide)]
  have hframe (i : Nat) (hi : i < (merge X Y).length / 4) := stereoFrame_merge (hmin.symm ▸ hframes ▸ hi)
  exact ⟨downmix_eq_take hframes fun i hi => congrArg Prod.fst (hframe i hi),
    downmix_eq_take (h ▸ hframes) fun i hi => congrArg Prod.snd (hframe i hi)⟩

/-- Whole samples of a byte sequence: all of it when its length is even, all but the last byte when it is odd. -/
theorem take_whole_samples (X : List Byte) :
    X.take (2 * (X.length / 2)) = if X.length % 2 = 0 then X else X.dropLast := by
  split
  next h => rw [List.take_of_length_le (by omega)]
  next h => rw [List.dropLast_eq_take]; congr 1; omega

/-! ### Errors and payload bytes -/

/-- Two outcomes leave the same ERR, if both are states. -/
def sameErr (o o' : Host.Outcome State Fault Refusal) : Prop :=
  ∀ t t', o = .next t → o' = .next t' → statusErr t.status = statusErr t'.status

theorem sameErr_raise (s s' : State) (e : ErrKind) : sameErr (.next (s.raise e)) (.next (s'.raise e)) := by
  rintro _ _ ⟨⟩ ⟨⟩
  rfl

theorem sameErr_succeed (s s' : State) : sameErr (.next s.succeed) (.next s'.succeed) := by
  rintro _ _ ⟨⟩ ⟨⟩
  exact (statusOnSuccess_fields s.status).left.trans (statusOnSuccess_fields s'.status).left.symm

theorem sameErr_ite {c : Prop} [Decidable c] {o p o' p' : Host.Outcome State Fault Refusal} (ho : sameErr o o')
    (hp : sameErr p p') : sameErr (if c then o else p) (if c then o' else p') := by
  split
  · exact ho
  · exact hp

theorem literalFields_congr {m m' : Memory} (h : ∀ a, a < 44 → m'.read a = m.read a) :
    literalFields m' ↔ literalFields m := by
  simp (disch := decide) only [literalFields, tags, word, h]

/-- The outcome of a parse is decided by the length and the first 44 bytes (40_headercodec.md R120). -/
theorem parseHeader_sameOutcome {b b' : Buffer} (hlen : b'.len = b.len)
    (hmem : ∀ a, a < 44 → b'.mem.read a = b.mem.read a) :
    (∃ e, parseHeader b.bytes = .error e ∧ parseHeader b'.bytes = .error e) ∨
    ∃ h h', parseHeader b.bytes = .ok h ∧ parseHeader b'.bytes = .ok h' := by
  by_cases hshort : b.len.toNat < 44
  · exact .inl ⟨_, parseHeader_length (by rwa [Buffer.bytes_length]),
      parseHeader_length (by rwa [Buffer.bytes_length, hlen])⟩
  have hlong := Nat.not_lt.mp hshort
  have hlong' : 44 ≤ b'.len.toNat := hlen ▸ hlong
  by_cases hfields : literalFields b.mem
  · exact .inr ⟨_, _, parseHeader_bytes hlong hfields,
      parseHeader_bytes hlong' ((literalFields_congr hmem).mpr hfields)⟩
  · exact .inl ⟨_, parseHeader_bytes_of_not_literalFields hlong hfields,
      parseHeader_bytes_of_not_literalFields hlong' (mt (literalFields_congr hmem).mp hfields)⟩

section
variable {s s' : State}

theorem parseSide_sameErr {x : Side} (hlen : (s'.source x).len = (s.source x).len)
    (hmem : ∀ a, a < 44 → (s'.source x).mem.read a = (s.source x).mem.read a) :
    sameErr (parseSide x s) (parseSide x s') := by
  rcases parseHeader_sameOutcome hlen hmem with ⟨e, h, h'⟩ | ⟨_, _, h, h'⟩
  · rw [parseSide_of_error h, parseSide_of_error h']
    exact sameErr_raise s s' e
  · rw [parseSide_of_ok h, parseSide_of_ok h']
    exact sameErr_succeed _ _

theorem readSide_sameErr {x : Side} (hlen : (s'.source x).len = (s.source x).len)
    (hmem : ∀ a, a < 44 → (s'.source x).mem.read a = (s.source x).mem.read a) :
    sameErr (readSide x s) (readSide x s') := by
  rcases parseHeader_sameOutcome hlen hmem with ⟨e, h, h'⟩ | ⟨_, _, h, h'⟩
  · rw [readSide_of_error h, readSide_of_error h']
    exact sameErr_raise s s' e
  · rw [readSide_of_ok h, readSide_of_ok h']
    exact sameErr_succeed _ _

theorem writeHeader_sameErr {ds ds' : Nat} (hds : ds' = ds) (hch : s'.och = s.och) (hrate : s'.orate = s.orate)
    (hbps : s'.obps = s.obps) : sameErr (writeHeader ds s) (writeHeader ds' s') := by
  rw [writeHeader, writeHeader, hds, hch, hrate, hbps]
  split
  · exact sameErr_raise s s' _
  · exact sameErr_succeed _ _

theorem runDownmix_sameErr (sel : Sel) (h : s'.isStereo16 = s.isStereo16) :
    sameErr (runDownmix sel s) (runDownmix sel s') := by
  rw [runDownmix, runDownmix, h]
  exact sameErr_ite (sameErr_succeed _ _) (sameErr_raise s s' _)

theorem execMrg_sameErr (h : s'.mergeable = s.mergeable) : sameErr (execMrg s) (execMrg s') := by
  rw [execMrg, execMrg, h]
  exact sameErr_ite (sameErr_succeed _ _) (sameErr_raise s s' _)

theorem execMse_sameErr (h : s'.isStereo16 = s.isStereo16) : sameErr (execMse s) (execMse s') := by
  rw [execMse, execMse, h]
  exact sameErr_ite (sameErr_succeed _ _) (sameErr_raise s s' _)

theorem execMsd_sameErr (h : s'.isCoded32 = s.isCoded32) (hlen : s'.pa.len = s.pa.len) :
    sameErr (execMsd s) (execMsd s') := by
  rw [execMsd, execMsd, h, hlen]
  exact sameErr_ite (sameErr_ite (sameErr_raise s s' _) (sameErr_succeed _ _)) (sameErr_raise s s' _)

/-- Every command's error is decided by what `sameTests` names (60_exceptions.md R205). -/
theorem exec_sameErr (i : Instr) (h : sameTests s s') : sameErr (exec i s) (exec i s') := by
  obtain ⟨hsa, hsb, hpa, hpb, hpo, ⟨hach, harate, habps⟩, ⟨hbch, hbrate, hbbps⟩, ⟨hoch, horate, hobps, hodsize⟩, hamem,
    hbmem⟩ := h
  have hstereo : s'.isStereo16 = s.isStereo16 := by rw [State.isStereo16, State.isStereo16, hach, habps]
  have hcoded : s'.isCoded32 = s.isCoded32 := by rw [State.isCoded32, State.isCoded32, hach, habps]
  have hmerge : s'.mergeable = s.mergeable := by
    rw [State.mergeable, State.mergeable, hach, hbch, habps, hbbps, harate, hbrate, hpa, hpb]
  cases i
  case parseA => exact parseSide_sameErr (x := .a) hsa hamem
  case parseB => exact parseSide_sameErr (x := .b) hsb hbmem
  case rdcA => exact readSide_sameErr (x := .a) hsa hamem
  case rdcB => exact readSide_sameErr (x := .b) hsb hbmem
  case build => exact writeHeader_sameErr (congrArg BitVec.toNat hodsize) hoch horate hobps
  case wrc => exact writeHeader_sameErr (congrArg BitVec.toNat hpo) hoch horate hobps
  case dmxL => exact runDownmix_sameErr .left hstereo
  case dmxR => exact runDownmix_sameErr .right hstereo
  case dmxS => exact runDownmix_sameErr .midSum hstereo
  case dmxD => exact runDownmix_sameErr .midDiff hstereo
  case mrg => exact execMrg_sameErr hmerge
  case mse => exact execMse_sameErr hstereo
  case msd => exact execMsd_sameErr hcoded hpa

/-- A command word decodes alike in every state (30_encoding.md R91), so its error is its command's or code 7. -/
theorem issueCommand_sameErr (w : Byte) (h : sameTests s s') : sameErr (issueCommand w s) (issueCommand w s') := by
  rw [issueCommand, issueCommand]
  cases decode w with
  | ok i => exact exec_sameErr i h
  | error _ => exact sameErr_raise s s' _

end

end Sys2Proof.Machine

namespace Sys2Proof.Proofs

open Sys2Proof.Machine Sys2Proof.Claims

/-- Settles O23: both halves are of 17-bit numbers, so they are int16, which clamp and conversion keep. -/
theorem halvedSumAndDifferenceStayInRange : Obligations.HalvedSumAndDifferenceStayInRange := by
  refine ⟨fun l r hl1 hl2 hr1 hr2 => ?_, rfl, rfl⟩
  obtain ⟨hs1, hs2⟩ := fdiv2_range (x := l + r) (by omega) (by omega)
  obtain ⟨hd1, hd2⟩ := fdiv2_range (x := l - r) (by omega) (by omega)
  exact ⟨by omega, ⟨hs1, hs2⟩, by omega, ⟨hd1, hd2⟩, clamp16_of_range _ hs1 hs2, clamp16_of_range _ hd1 hd2,
    s16_u16 _ hs1 hs2, s16_u16 _ hd1 hd2⟩

/-- Settles O19: selector Left. -/
theorem dmxLeftFollowsR151 : Obligations.DmxLeftFollowsR151 :=
  downmixes_of_runDownmix .left rfl (fun _ => rfl) fun _ _ => rfl

/-- Settles O20: selector Right. -/
theorem dmxRightFollowsR152 : Obligations.DmxRightFollowsR152 :=
  downmixes_of_runDownmix .right rfl (fun _ => rfl) fun _ _ => rfl

/-- Settles O21: selector MidSum; by a positive divisor the model's division is the floor. -/
theorem dmxMidSumFollowsR153 : Obligations.DmxMidSumFollowsR153 :=
  downmixes_of_runDownmix .midSum rfl (fun _ => rfl) fun _ _ => (Int.fdiv_eq_ediv_of_nonneg _ (by decide)).symm

/-- Settles O22: selector MidDiff; by a positive divisor the model's division is the floor. -/
theorem dmxMidDiffFollowsR154 : Obligations.DmxMidDiffFollowsR154 :=
  downmixes_of_runDownmix .midDiff rfl (fun _ => rfl) fun _ _ => (Int.fdiv_eq_ediv_of_nonneg _ (by decide)).symm

/-- Settles O25: the down-mix gives back the whole samples of each channel. -/
theorem downmixRecoversMergedChannels : Obligations.DownmixRecoversMergedChannels := by
  intro X Y hlen
  obtain ⟨hleft, hright⟩ := downmix_merge hlen
  rw [hleft, hright, take_whole_samples, take_whole_samples, ← hlen]
  exact ⟨fun heven => ⟨if_pos heven, if_pos heven⟩, fun hodd => ⟨if_neg (by omega), if_neg (by omega)⟩⟩

/-- Settles O39: the command word decodes to one command in both states, whose tests agree. -/
theorem errorsDoNotDependOnPayloadBytes : Obligations.ErrorsDoNotDependOnPayloadBytes :=
  fun w _ _ t t' hs => issueCommand_sameErr w hs t t'

end Sys2Proof.Proofs
end

