-- ==== Sys2Proof/Proofs/Merge.lean ====
section
/-!
PROOFS. The claims from spec/42_merge.md. A merge copies bytes and does no arithmetic, so both claims rest on one fact:
which input byte stands in each of the four cells of an output frame (R170).
-/

namespace Sys2Proof.Machine

open Sys2Proof.Claims

/-- Existing bytes that agree as `getD` reads them agree as bytes that exist. -/
theorem getElem?_eq_of_getD_eq {P X : List Byte} {a b : Nat} (ha : a < P.length) (hb : b < X.length)
    (h : P.getD a 0 = X.getD b 0) : P[a]? = X[b]? := by
  rw [List.getElem?_eq_getElem ha, List.getElem?_eq_getElem hb, ← List.getD_eq_getElem _ 0 ha,
    ← List.getD_eq_getElem _ 0 hb, h]

/-- The four cells of an output frame: a sample of X, then the sample of Y with the same index (42_merge.md R170). -/
theorem merge_cells {X Y : List Byte} {i : Nat} (h : i < min (X.length / 2) (Y.length / 2)) :
    (merge X Y).getD (4 * i) 0 = X.getD (2 * i) 0 ∧ (merge X Y).getD (4 * i + 1) 0 = X.getD (2 * i + 1) 0 ∧
      (merge X Y).getD (4 * i + 2) 0 = Y.getD (2 * i) 0 ∧ (merge X Y).getD (4 * i + 3) 0 = Y.getD (2 * i + 1) 0 :=
  have cell (j : Nat) (hj : j < 4) := merge_getD X Y i j h hj 0
  ⟨cell 0 (by decide), cell 1 (by decide), cell 2 (by decide), cell 3 (by decide)⟩

/-! ### The command -/

/-- The 16-bit field of a stored byte sequence, by its two bytes (20_memory.md R62). -/
theorem half_ofBytes_getD (bs : List Byte) (a : Nat) :
    half (Memory.ofBytes bs) a = bs.getD (a + 1) 0 ++ bs.getD a 0 := by
  rw [half, Memory.read_ofBytes, Memory.read_ofBytes]
  rfl

/-- The 16-bit field of a buffer's content, by its two bytes (20_memory.md R62). -/
theorem half_mem_getD {x : Buffer} {a : Nat} (h : a + 1 < x.len.toNat) :
    half x.mem a = x.bytes.getD (a + 1) 0 ++ x.bytes.getD a 0 := by
  rw [half, Buffer.getD_bytes x _ h, Buffer.getD_bytes x a (by omega)]

/-- Frame k of two merged buffers, field by field: sample k of each (42_merge.md R170). -/
theorem half_merge {x y : Buffer} {k : Nat} (hx : k < x.len.toNat / 2) (hy : k < y.len.toNat / 2) :
    half (Memory.ofBytes (merge x.bytes y.bytes)) (4 * k) = half x.mem (2 * k) ∧
      half (Memory.ofBytes (merge x.bytes y.bytes)) (4 * k + 2) = half y.mem (2 * k) := by
  have hk : k < min (x.bytes.length / 2) (y.bytes.length / 2) := by
    rw [Buffer.bytes_length, Buffer.bytes_length]
    exact lt_min hx hy
  obtain ⟨hleft0, hleft1, hright0, hright1⟩ := merge_cells hk
  constructor
  · rw [half_ofBytes_getD, half_mem_getD (by omega), hleft0, hleft1]
  · rw [half_ofBytes_getD, half_mem_getD (by omega), hright0, hright1]

theorem mergeable_iff (s : State) : s.mergeable ↔ mergeInputs s := by
  simp [State.mergeable, mergeInputs, and_assoc]

theorem execMrg_of_mergeable {s : State} (h : s.mergeable) :
    execMrg s = .next (s.setOut (merge s.pa.bytes s.pb.bytes)).succeed := if_pos h

end Sys2Proof.Machine

namespace Sys2Proof.Proofs

open Sys2Proof.Machine Sys2Proof.Claims

/-- Settles O26: each cell of a frame is an input byte, and both exist because the frame's index is below the shorter
sample count. -/
theorem mergeInterleavesUpToTheShorter : Obligations.MergeInterleavesUpToTheShorter := by
  intro X Y
  have hlen : (merge X Y).length = 4 * min (X.length / 2) (Y.length / 2) := by rw [merge_length, Nat.mul_comm]
  refine ⟨hlen, fun i hi => ?_⟩
  obtain ⟨hleft0, hleft1, hright0, hright1⟩ := merge_cells hi
  exact ⟨getElem?_eq_of_getD_eq (by omega) (by omega) hleft0, getElem?_eq_of_getD_eq (by omega) (by omega) hleft1,
    getElem?_eq_of_getD_eq (by omega) (by omega) hright0, getElem?_eq_of_getD_eq (by omega) (by omega) hright1⟩

/-- Settles O27: equal lengths give equal sample counts, and the bound on PALEN lets the merged length fit POLEN. -/
theorem mrgFollowsR171 : Obligations.MrgFollowsR171 := by
  refine ⟨rfl, fun s => ⟨fun hs => ?mismatch, fun hs hbound => ?merged⟩⟩
  case mismatch => exact execMrg_of_not_mergeable (mt (mergeable_iff s).mp hs)
  case merged =>
    have hnext := execMrg_of_mergeable ((mergeable_iff s).mpr hs)
    obtain ⟨-, -, -, -, -, hpb⟩ := hs
    have hlen : (merge s.pa.bytes s.pb.bytes).length = 4 * (s.pa.len.toNat / 2) := by
      rw [merge_length, Buffer.bytes_length, Buffer.bytes_length, ← hpb, Nat.min_self, Nat.mul_comm]
    have hpo : (Buffer.ofBytes (merge s.pa.bytes s.pb.bytes)).len.toNat = 4 * (s.pa.len.toNat / 2) := by
      rw [Buffer.ofBytes_len _ (by omega), hlen]
    refine ⟨Buffer.ofBytes (merge s.pa.bytes s.pb.bytes), hpo, ?outEnd, fun k hk => ?frame, ?next⟩
    case outEnd => exact hpo ▸ hlen ▸ endsAt_ofBytes (merge s.pa.bytes s.pb.bytes)
    case frame => exact half_merge hk (hpb ▸ hk)
    case next => exact hnext.trans (by rw [State.succeed_eq (State.setOut_status ..)]; rfl)

end Sys2Proof.Proofs
end

