-- ==== Sys2Proof/Proofs/MidSideEncode.lean ====
section
/-!
PROOFS. The claims from spec/43_midside_encode.md, and from spec/44_midside_decode.md R193 what MSD makes of MSE's
output. A coded sample is stored as the stereo frame (side, mid) would be, because its low half is at the lower offset;
so one fact about the four cells of a frame says what both commands leave in PO. That mid + side is the left sample less
the parity of the sum and mid - side is the right sample (R183) gives the cases of R193.
-/

namespace Sys2Proof.Machine

open Sys2Proof.Claims

/-! ### Mid and side of one frame -/

/-- The model's halving is the floor (00_scope.md R14). -/
theorem fdiv2_eq_fdiv (x : Int) : fdiv2 x = Int.fdiv x 2 := (Int.fdiv_eq_ediv_of_nonneg x (by decide)).symm

/-- Mid plus side is the left sample less the parity of the sum (43_midside_encode.md R183). -/
theorem mid_add_side (l r : Int) : fdiv2 (l + r) + fdiv2 (l - r) = l - (l + r) % 2 := by
  unfold fdiv2
  omega

/-- Mid minus side is the right sample, whatever the parity (43_midside_encode.md R183). -/
theorem mid_sub_side (l r : Int) : fdiv2 (l + r) - fdiv2 (l - r) = r := by
  unfold fdiv2
  omega

/-- The left sample of a frame with an odd sum can be one less: neither floored half changes. -/
theorem encodeFrame_eq_of_odd {l r : Int} (h : (l + r) % 2 = 1) : encodeFrame (l, r) = encodeFrame (l - 1, r) := by
  have hmid : fdiv2 (l + r) = fdiv2 (l - 1 + r) := by unfold fdiv2; omega
  have hside : fdiv2 (l - r) = fdiv2 (l - 1 - r) := by unfold fdiv2; omega
  simp only [encodeFrame_eq, hmid, hside]

/-- The coded sample is a 32-bit word (43_midside_encode.md R181). -/
theorem encodeFrame_lt (f : Int × Int) : encodeFrame f < 0x100000000 := by
  have hmid := u16_lt (fdiv2 (f.1 + f.2))
  have hside := u16_lt (fdiv2 (f.1 - f.2))
  rw [encodeFrame_eq]
  omega

/-- The decoder reads mid as it was stored, unsigned, and side as it was, signed (44_midside_decode.md R190). -/
theorem decodeSample_encodeFrame {l r : Int} (h : -32768 ≤ fdiv2 (l - r) ∧ fdiv2 (l - r) ≤ 32767) :
    decodeSample (encodeFrame (l, r)) = (clamp16 (u16 (fdiv2 (l + r)) + fdiv2 (l - r)),
      clamp16 (u16 (fdiv2 (l + r)) - fdiv2 (l - r))) := by
  have hside := u16_lt (fdiv2 (l - r))
  have hword : encodeFrame (l, r) = u16 (fdiv2 (l + r)) * 65536 + u16 (fdiv2 (l - r)) := encodeFrame_eq (l, r)
  have hhigh : encodeFrame (l, r) / 65536 = u16 (fdiv2 (l + r)) := by omega
  have hlow : encodeFrame (l, r) % 65536 = u16 (fdiv2 (l - r)) := by omega
  rw [decodeSample_eq _ (encodeFrame_lt _), hhigh, hlow, s16_u16 _ h.1 h.2]

section
variable {l r : Int} (hl : -32768 ≤ l ∧ l ≤ 32767) (hr : -32768 ≤ r ∧ r ≤ 32767)
include hl hr

/-- Cases (a) and (b) of 44_midside_decode.md R193: mid is not negative, and nothing is clamped. -/
theorem decodeSample_encodeFrame_of_nonneg (h : 0 ≤ l + r) :
    decodeSample (encodeFrame (l, r)) = (l - (l + r) % 2, r) := by
  have hmid := fdiv2_spec (l + r)
  rw [decodeSample_encodeFrame (fdiv2_range (by omega) (by omega)), u16_nonneg _ (by omega) (by omega), mid_add_side,
    mid_sub_side, clamp16_of_range _ (by omega) (by omega), clamp16_of_range r hr.1 hr.2]

/-- Case (c) of 44_midside_decode.md R193: a negative mid is read 65536 too great, and both outputs saturate. -/
theorem decodeSample_encodeFrame_of_neg (h : l + r < 0) : decodeSample (encodeFrame (l, r)) = (32767, 32767) := by
  have hmid := fdiv2_spec (l + r)
  have hadd := mid_add_side l r
  have hsub := mid_sub_side l r
  rw [decodeSample_encodeFrame (fdiv2_range (by omega) (by omega)), u16_neg _ (by omega) (by omega),
    clamp16_high _ (by omega), clamp16_high _ (by omega)]

end

/-! ### The cells of a frame -/

/-- A 32-bit field is stored as its two 16-bit halves, the low half first (20_memory.md R63). -/
theorem leBytes_four_halves (high : Nat) {low : Nat} (h : low < 65536) :
    leBytes 4 (high * 65536 + low) = leBytes 2 low ++ leBytes 2 high := by
  simp only [leBytes_four, leBytes_two, List.cons_append, List.nil_append, List.cons.injEq, and_true]
  refine ⟨?_, ?_, ?_, ?_⟩ <;> apply BitVec.eq_of_toNat_eq <;> simp only [BitVec.toNat_ofNat] <;> omega

/-- A coded sample is stored as the frame of its side and its mid (43_midside_encode.md R181). -/
theorem leBytes_encodeFrame (f : Int × Int) :
    leBytes 4 (encodeFrame f) = stereoBytes (fdiv2 (f.1 - f.2), fdiv2 (f.1 + f.2)) := by
  rw [encodeFrame_eq, leBytes_four_halves _ (u16_lt _), stereoBytes]

/-- The two 16-bit fields of a stored frame of int16 (20_memory.md R70). -/
theorem half_stereoBytes {bs : List Byte} {k : Nat} {l r : Int}
    (hcells : ∀ j < 4, bs.getD (4 * k + j) 0 = (stereoBytes (l, r)).getD j 0) (hl : -32768 ≤ l ∧ l ≤ 32767)
    (hr : -32768 ≤ r ∧ r ≤ 32767) :
    (half (Memory.ofBytes bs) (4 * k)).toInt = l ∧ (half (Memory.ofBytes bs) (4 * k + 2)).toInt = r := by
  simp only [stereoBytes, leBytes_two] at hcells
  constructor
  · rw [half_ofBytes (a := 4 * k) (hcells 0 (by decide)) (hcells 1 (by decide)), toInt_ofNat_u16 hl]
  · rw [half_ofBytes (a := 4 * k + 2) (hcells 2 (by decide)) (hcells 3 (by decide)), toInt_ofNat_u16 hr]

/-! ### The commands -/

/-- Frame k of an encoded payload: side in the low half, mid in the high half (43_midside_encode.md R182). -/
theorem half_midSideEncode {P : List Byte} {k : Nat} (h : k < P.length / 4) :
    (half (Memory.ofBytes (midSideEncode P)) (4 * k)).toInt = fdiv2 ((stereoFrame P k).1 - (stereoFrame P k).2) ∧
      (half (Memory.ofBytes (midSideEncode P)) (4 * k + 2)).toInt
        = fdiv2 ((stereoFrame P k).1 + (stereoFrame P k).2) := by
  obtain ⟨hl, hr⟩ := stereoFrame_range P k
  have hside := fdiv2_range (x := (stereoFrame P k).1 - (stereoFrame P k).2) (by omega) (by omega)
  have hmid := fdiv2_range (x := (stereoFrame P k).1 + (stereoFrame P k).2) (by omega) (by omega)
  refine half_stereoBytes (fun j hj => ?_) hside hmid
  rw [midSideEncode_getD P k j h hj, leBytes_encodeFrame]

/-- Frame k of a decoded payload is the decoded sample k (44_midside_decode.md R192). -/
theorem half_midSideDecode {P : List Byte} {k : Nat} (h : k < P.length / 4) :
    (half (Memory.ofBytes (midSideDecode P)) (4 * k)).toInt = (decodeSample (codedSample P k)).1 ∧
      (half (Memory.ofBytes (midSideDecode P)) (4 * k + 2)).toInt = (decodeSample (codedSample P k)).2 :=
  half_stereoBytes (fun j hj => midSideDecode_getD P k j h hj 0) (clamp16_range _) (clamp16_range _)

/-- Coded sample k of an encoded payload is the word of frame k. -/
theorem codedSample_midSideEncode {P : List Byte} {k : Nat} (h : k < P.length / 4) :
    codedSample (midSideEncode P) k = encodeFrame (stereoFrame P k) := by
  have hlt := encodeFrame_lt (stereoFrame P k)
  have cell (j : Nat) (hj : j < 4) := midSideEncode_getD P k j h hj 0
  simp only [leBytes_four] at cell
  rw [codedSample, memRead_four, cell 1 (by decide), cell 2 (by decide), cell 3 (by decide),
    show (midSideEncode P).getD (4 * k) 0 = _ from cell 0 (by decide)]
  simp only [List.getD_cons_zero, List.getD_cons_succ, BitVec.toNat_ofNat]
  omega

/-- A command that writes one 4-byte frame per 4-byte frame of a buffer: POLEN holds the length. -/
theorem ofBytes_len_of_frames {bs : List Byte} {x : Buffer} (h : bs.length = x.len.toNat / 4 * 4) :
    (Buffer.ofBytes bs).len.toNat = 4 * (x.len.toNat / 4) := by
  have hbound := x.len.isLt
  rw [Buffer.ofBytes_len _ (by omega), h, Nat.mul_comm]

/-- Nothing is listed beyond the length register of a buffer that was written. -/
theorem endsAt_ofBytes_len {bs : List Byte} (h : bs.length < 2 ^ 32) :
    endsAt (Buffer.ofBytes bs).mem (Buffer.ofBytes bs).len.toNat := by
  rw [Buffer.ofBytes_len bs h]
  exact endsAt_ofBytes bs

theorem execMse_of_stereo16 {s : State} (h : s.isStereo16) :
    execMse s = .next (s.setOut (midSideEncode s.pa.bytes)).succeed := if_pos h

theorem execMsd_of_coded32 {s : State} (h : s.isCoded32) (hlen : s.pa.len ≠ 0) :
    execMsd s = .next (s.setOut (midSideDecode s.pa.bytes)).succeed := (if_pos h).trans (if_neg hlen)

/-- MSE, then MSD on its output as a coded 32 payload: both succeed, and PO is the decoded encoding of PA. -/
theorem execMse_then_execMsd {s : State} (h : s.isStereo16) (hframe : 4 ≤ s.pa.len.toNat) :
    ∃ t u, execMse s = .next t ∧ execMsd { t with pa := t.po, ha := { t.ha with ch := 1, bps := 32 } } = .next u ∧
      u.po = Buffer.ofBytes (midSideDecode (midSideEncode s.pa.bytes)) := by
  have hlen : (midSideEncode s.pa.bytes).length = s.pa.len.toNat / 4 * 4 := by simp
  have hpo := ofBytes_len_of_frames hlen
  have hne : (Buffer.ofBytes (midSideEncode s.pa.bytes)).len.toNat ≠ 0 := by omega
  have hbound := s.pa.len.isLt
  refine ⟨_, _, execMse_of_stereo16 h, execMsd_of_coded32 rfl (mt (congrArg BitVec.toNat) hne), ?_⟩
  exact congrArg (fun P => Buffer.ofBytes (midSideDecode P)) (Buffer.bytes_ofBytes _ (by omega))

/-- Frame k of a payload that was encoded and decoded is frame k, encoded and decoded. -/
theorem half_midSideDecode_midSideEncode {P : List Byte} {k : Nat} (h : k < P.length / 4) :
    (half (Memory.ofBytes (midSideDecode (midSideEncode P))) (4 * k)).toInt
        = (decodeSample (encodeFrame (stereoFrame P k))).1 ∧
      (half (Memory.ofBytes (midSideDecode (midSideEncode P))) (4 * k + 2)).toInt
        = (decodeSample (encodeFrame (stereoFrame P k))).2 := by
  rw [← codedSample_midSideEncode h]
  exact half_midSideDecode (by rw [midSideEncode_length]; omega)

end Sys2Proof.Machine

namespace Sys2Proof.Proofs

open Sys2Proof.Machine Sys2Proof.Claims

/-- Settles O29: the parities agree because l + r and l - r differ by 2r; the rest are the two sums of R183. -/
theorem packingLosesTheParityBit : Obligations.PackingLosesTheParityBit := by
  intro l r _ _ _ _
  have hadd := mid_add_side l r
  have hsub := mid_sub_side l r
  refine ⟨by omega, fun heven => ⟨by omega, hsub⟩, fun hodd => ⟨by omega, hsub, encodeFrame_eq_of_odd hodd⟩⟩

/-- Settles O28: a coded sample's halves are mid and side, and they are int16, so nothing is lost in storing them. -/
theorem mseFollowsR182 : Obligations.MseFollowsR182 := by
  refine ⟨rfl, fun s => ⟨fun hs => ?format, fun hs => ?encoded⟩⟩ <;> rw [← isStereo16_iff] at hs
  case format => exact execMse_of_not_stereo16 hs
  case encoded =>
    have hlen : (midSideEncode s.pa.bytes).length = s.pa.len.toNat / 4 * 4 := by simp
    have hpo := ofBytes_len_of_frames hlen
    have hbound := s.pa.len.isLt
    refine ⟨Buffer.ofBytes (midSideEncode s.pa.bytes), hpo, ?outEnd, fun k hk => ?sample, ?next⟩
    case outEnd => exact endsAt_ofBytes_len (by omega)
    case sample =>
      obtain ⟨hside, hmid⟩ := half_midSideEncode (P := s.pa.bytes) (by rwa [Buffer.bytes_length])
      rw [fdiv2_eq_fdiv, Buffer.bytes, stereoFrame_bytes hk] at hside hmid
      exact ⟨hmid, hside⟩
    case next => exact (execMse_of_stereo16 hs).trans (by rw [State.succeed_eq (State.setOut_status ..)]; rfl)

/-- Settles O32: MSD reads the words that MSE stored; the sign of the sum says whether mid is read as it was stored, and
its parity what the left sample loses. -/
theorem encodeThenDecodeIsTheThreeCasesOfR193 : Obligations.EncodeThenDecodeIsTheThreeCasesOfR193 := by
  intro s hs hframe
  obtain ⟨t, u, hmse, hmsd, hpo⟩ := execMse_then_execMsd ((isStereo16_iff s).mpr hs) hframe
  refine ⟨t, u, hmse, hmsd, ?len, fun k hk => ?frame⟩
  case len => rw [hpo, ofBytes_len_of_frames (x := s.pa) (by simp)]
  case frame =>
    obtain ⟨hleft, hright⟩ := half_midSideDecode_midSideEncode (P := s.pa.bytes) (by rwa [Buffer.bytes_length])
    obtain ⟨hl, hr⟩ := stereoFrame_range s.pa.bytes k
    rw [Buffer.bytes, stereoFrame_bytes hk] at hl hr hleft hright
    rw [hpo, Buffer.ofBytes_mem, Buffer.bytes, hleft, hright]
    generalize (half s.pa.mem (4 * k)).toInt = l, (half s.pa.mem (4 * k + 2)).toInt = r at hl hr ⊢
    rcases le_or_gt 0 (l + r) with hnonneg | hneg
    · rw [decodeSample_encodeFrame_of_nonneg hl hr hnonneg]
      dsimp only
      omega
    · rw [decodeSample_encodeFrame_of_neg hl hr hneg]
      dsimp only
      omega

end Sys2Proof.Proofs
end

