-- ==== Sys2Proof/Proofs/MidSideDecode.lean ====
section
/-!
PROOFS. The claims from spec/44_midside_decode.md R191 and R192. A coded sample is the append of its two 16-bit fields,
mid above side; so one equation for the decoder on `mid ++ side` gives both what MSD leaves in PO and when its clamp
acts. Because mid is read unsigned, neither output is below the int16 range, and the clamp is a minimum.
-/

namespace Sys2Proof.Machine

open Sys2Proof.Claims

/-! ### One coded sample -/

/-- The model's clamp is the cut to the int16 range from both ends (00_scope.md R14). -/
theorem clamp16_eq_toInt16Range (x : Int) : clamp16 x = toInt16Range x := by
  unfold clamp16 toInt16Range
  split <;> omega

/-- The clamp of a value that is not below the int16 range. -/
theorem clamp16_eq_min {x : Int} (h : -32768 ≤ x) : clamp16 x = min 32767 x := by
  rw [clamp16_eq_toInt16Range, toInt16Range, max_eq_right (le_min (by decide) h)]

/-- A field read signed is an int16 (00_scope.md R13). -/
theorem toInt_range (x : BitVec 16) : -32768 ≤ x.toInt ∧ x.toInt ≤ 32767 := by
  rw [← s16_toNat]
  exact s16_range _ x.isLt

/-- A 32-bit word is its two 16-bit halves, by value (20_memory.md R63). -/
theorem toNat_append_half (high low : BitVec 16) : (high ++ low).toNat = high.toNat * 65536 + low.toNat := by
  rw [BitVec.toNat_append, ← Nat.shiftLeft_add_eq_or_of_lt low.isLt, Nat.shiftLeft_eq]

/-- The decoder takes mid from the high half, unsigned, and side from the low half, signed (44_midside_decode.md
R190). -/
theorem decodeSample_append (mid side : BitVec 16) :
    decodeSample (mid ++ side).toNat
      = (clamp16 ((mid.toNat : Int) + side.toInt), clamp16 ((mid.toNat : Int) - side.toInt)) := by
  have hside := side.isLt
  have hhigh : (mid ++ side).toNat / 65536 = mid.toNat := by rw [toNat_append_half]; omega
  have hlow : (mid ++ side).toNat % 65536 = side.toNat := by rw [toNat_append_half]; omega
  rw [decodeSample_eq _ (mid ++ side).isLt, hhigh, hlow, s16_toNat]

/-- Bit 31 of a coded sample is the top bit of mid. -/
theorem le_toNat_of_getMsbD_append {mid side : BitVec 16} (h : (mid ++ side).getMsbD 0 = true) :
    32768 ≤ mid.toNat := by
  have hmsb : mid.msb = true := (BitVec.msb_append (x := mid) (y := side)).symm.trans h
  rw [BitVec.msb_eq_decide] at hmsb
  exact of_decide_eq_true hmsb

/-- Coded sample k of a memory's bytes is the 16-bit field at its higher offset over the one at its lower
(20_memory.md R70). -/
theorem codedSample_bytes {m : Memory} {n k : Nat} (h : k < n / 4) :
    codedSample (m.bytes n) k = (half m (4 * k + 2) ++ half m (4 * k)).toNat := by
  rw [codedSample, memRead_four_halves, memRead_bytes_two (by omega), memRead_bytes_two (by omega), toNat_append_half]
  omega

/-! ### The command -/

theorem isCoded32_iff (s : State) : s.isCoded32 ↔ s.ha.ch = 1 ∧ s.ha.bps = 32 := by simp [State.isCoded32]

/-- The length is tested after the format (44_midside_decode.md R192). -/
theorem execMsd_of_empty {s : State} (h : s.isCoded32) (hlen : s.pa.len = 0) :
    execMsd s = .next (s.raise .emptyPayload) := (if_pos h).trans (if_pos hlen)

end Sys2Proof.Machine

namespace Sys2Proof.Proofs

open Sys2Proof.Machine Sys2Proof.Claims

/-- Settles O30: each coded sample of PA is mid over side, and the clamp's outputs are int16, so nothing is lost in
storing them. -/
theorem msdFollowsR192 : Obligations.MsdFollowsR192 := by
  refine ⟨rfl, fun s => ?_⟩
  rw [← isCoded32_iff]
  refine ⟨fun hs => ?format, fun hs hempty => ?empty, fun hs hne => ?decoded⟩
  case format => exact execMsd_of_not_coded32 hs
  case empty => exact execMsd_of_empty hs hempty
  case decoded =>
    have hlen : (midSideDecode s.pa.bytes).length = s.pa.len.toNat / 4 * 4 := by simp
    have hpo := ofBytes_len_of_frames hlen
    have hbound := s.pa.len.isLt
    refine ⟨Buffer.ofBytes (midSideDecode s.pa.bytes), hpo, ?outEnd, fun k hk => ?frame, ?next⟩
    case outEnd => exact endsAt_ofBytes_len (by omega)
    case frame =>
      rw [← clamp16_eq_toInt16Range, ← clamp16_eq_toInt16Range]
      have hframe := half_midSideDecode (P := s.pa.bytes) (by rwa [Buffer.bytes_length])
      rwa [Buffer.bytes, codedSample_bytes hk, decodeSample_append] at hframe
    case next => exact (execMsd_of_coded32 hs hne).trans (by rw [State.succeed_eq (State.setOut_status ..)]; rfl)

/-- Settles O31: mid is never negative, so no output is below int16; and the two outputs before the clamp add up to
twice mid, which bit 31 makes at least 65536. -/
theorem decoderClampsOnlyUpward : Obligations.DecoderClampsOnlyUpward := by
  refine ⟨rfl, rfl, fun mid side => ?_⟩
  have hmid := mid.isLt
  obtain ⟨hlow, hhigh⟩ := toInt_range side
  refine ⟨by omega, by omega, ?clamp, fun hbit => ?bit31⟩
  case clamp => rw [decodeSample_append, clamp16_eq_min (by omega), clamp16_eq_min (by omega)]
  case bit31 =>
    have htop := le_toNat_of_getMsbD_append hbit
    omega

end Sys2Proof.Proofs
end

