-- ==== Sys2Proof/Proofs/Exceptions.lean ====
section
/-!
PROOFS. The claims from spec/60_exceptions.md about a command word that ends in an error: it changes STATUS only (R204),
and repeated it gives the same state again (R206). R206 is derived as the spec derives it: a raise leaves every input of
the error tests, on which alone the code depends (R205).
-/

namespace Sys2Proof.Machine

open Sys2Proof.Claims

/-- A command that ends with ERR not 0 has raised an error: a success would have written 0 (10_state.md R39). -/
theorem eq_raise_of_statusErr_ne_zero {w : Byte} {s t : State} (h : issueCommand w s = .next t)
    (herr : statusErr t.status ≠ 0) : ∃ e, t = s.raise e := by
  rcases issueCommand_next h with hraised | ⟨_, _, _, hresult⟩
  · exact hraised
  · obtain ⟨hzero, _⟩ := statusOnSuccess_fields s.status
    rw [commandResult_status hresult] at herr
    exact absurd hzero herr

/-- No command word is refused and none faults. -/
theorem exists_issueCommand_eq_next (w : Byte) (s : State) : ∃ t, issueCommand w s = .next t := by
  rcases issueCommand_cases w s with ⟨i, _, hrun⟩ | ⟨_, _, hrun⟩
  · rcases exec_cases i s with ⟨_, _, hraise⟩ | ⟨_, hnext, _⟩
    · exact ⟨_, hrun.trans hraise⟩
    · exact ⟨_, hrun.trans hnext⟩
  · exact ⟨_, hrun⟩

/-- A raise writes STATUS, which no error test reads (R205). -/
theorem sameTests_raise (s : State) (e : ErrKind) : sameTests s (s.raise e) := by
  simp [sameTests]

/-- The later of two errors overwrites the earlier (R206). -/
theorem State.raise_raise (s : State) (e k : ErrKind) : (s.raise e).raise k = s.raise k := rfl

/-- STICKY is 1 after every error, so the code in ERR decides STATUS. -/
theorem statusOnError_congr {e k : ErrKind} (h : statusErr (statusOnError e) = statusErr (statusOnError k)) :
    statusOnError e = statusOnError k := by
  obtain ⟨he, _⟩ := statusOnError_fields e
  obtain ⟨hk, _⟩ := statusOnError_fields k
  exact congrArg (statusOf 1) (he.symm.trans (h.trans hk))

end Sys2Proof.Machine

namespace Sys2Proof.Proofs

open Sys2Proof.Machine

/-- Settles O34: ERR is not 0 only after a raise, which writes STATUS alone. -/
theorem errorsChangeStatusOnly : Obligations.ErrorsChangeStatusOnly := by
  intro w s t h herr
  obtain ⟨e, rfl⟩ := eq_raise_of_statusErr_ne_zero h herr
  obtain ⟨hcode, hsticky, _⟩ := statusOnError_fields e
  exact ⟨rfl, hsticky, e, hcode⟩

/-- Settles O38: the second run meets the same tests, so it raises the same code, over the same state. -/
theorem repeatedFailureRepeats : Obligations.RepeatedFailureRepeats := by
  intro w s t h herr
  obtain ⟨e, rfl⟩ := eq_raise_of_statusErr_ne_zero h herr
  obtain ⟨u, hu⟩ := exists_issueCommand_eq_next w (s.raise e)
  have hsame := issueCommand_sameErr w (sameTests_raise s e) _ _ h hu
  obtain ⟨k, rfl⟩ := eq_raise_of_statusErr_ne_zero hu (hsame ▸ herr)
  rw [hu, State.raise_raise, State.raise, State.raise, statusOnError_congr hsame]

end Sys2Proof.Proofs
end

section
/-!
PROOFS. The claims about every command (spec/10_state.md R31 to R43; spec/30_encoding.md R91; spec/60_exceptions.md
R201). All rest on `exec_cases`: a command raises an error, which writes STATUS alone, or ends with the one result that
`commandResult` names for it.
-/

namespace Sys2Proof.Machine

open Sys2Proof.Claims

/-! ### Decoding and encoding -/

theorem encode_mem_opcodeTable (i : Instr) : (encode i, i) ∈ opcodeTable := by cases i <;> decide

theorem encode_of_mem_opcodeTable : ∀ r ∈ opcodeTable, encode r.2 = r.1 := by decide

theorem issueCommand_of_decode {w : Byte} {i : Instr} (h : decode w = .ok i) (s : State) :
    issueCommand w s = exec i s := by
  rw [issueCommand, h]

/-! ### The frame of a command -/

/-- Every command on every state has a next state (93_implementation_defined.md, after U16). -/
theorem exists_exec_eq_next (i : Instr) (s : State) : ∃ t, exec i s = .next t := by
  rcases exec_cases i s with ⟨_, _, h⟩ | ⟨t, h, _⟩
  · exact ⟨_, h⟩
  · exact ⟨t, h⟩

/-- What no command writes: the sources, the output parameters, and the host's own fields. -/
def keepsInputs (s t : State) : Prop :=
  t.sa = s.sa ∧ t.sb = s.sb ∧ t.och = s.och ∧ t.orate = s.orate ∧ t.obps = s.obps ∧ t.odsize = s.odsize ∧
    t.pending = s.pending ∧ t.pos = s.pos ∧ t.received = s.received

theorem keepsInputs_raise (s : State) (e : ErrKind) : keepsInputs s (s.raise e) :=
  ⟨rfl, rfl, rfl, rfl, rfl, rfl, rfl, rfl, rfl⟩

/-- What a command keeps of the state that commands write: each piece of it is written by the commands named only. -/
def keepsOutputs (i : Instr) (s t : State) : Prop :=
  (i ≠ .parseA → i ≠ .rdcA → t.ha = s.ha) ∧ (i ≠ .parseB → i ≠ .rdcB → t.hb = s.hb) ∧
    (i ≠ .rdcA → t.pa = s.pa) ∧ (i ≠ .rdcB → t.pb = s.pb) ∧ (i ≠ .build → i ≠ .wrc → t.oh = s.oh) ∧
    (i = .parseA ∨ i = .parseB ∨ i = .rdcA ∨ i = .rdcB ∨ i = .build ∨ i = .wrc → t.po = s.po)

theorem keepsOutputs_raise (i : Instr) (s : State) (e : ErrKind) : keepsOutputs i s (s.raise e) := by
  simp [keepsOutputs]

/-- A command that succeeds writes its own state only (10_state.md R31, R34, R36, R38). -/
theorem commandResult_frame {i : Instr} {s t : State} (h : commandResult i s t) :
    keepsInputs s t ∧ keepsOutputs i s t := by
  cases i
  case parseA | parseB => obtain ⟨_, _, rfl⟩ := h; simp [keepsInputs, keepsOutputs]
  case rdcA | rdcB => obtain ⟨_, _, _, rfl⟩ := h; simp [keepsInputs, keepsOutputs]
  case mrg => obtain ⟨_, rfl⟩ := h; simp [keepsInputs, keepsOutputs]
  all_goals subst h; simp [keepsInputs, keepsOutputs]

theorem exec_frame {i : Instr} {s t : State} (h : exec i s = .next t) : keepsInputs s t ∧ keepsOutputs i s t := by
  rcases exec_cases i s with ⟨e, _, h'⟩ | ⟨u, h', hresult⟩ <;> cases h'.symm.trans h
  · exact ⟨keepsInputs_raise s e, keepsOutputs_raise i s e⟩
  · exact commandResult_frame hresult

theorem issueCommand_keepsInputs {w : Byte} {s t : State} (h : issueCommand w s = .next t) : keepsInputs s t := by
  rcases issueCommand_next h with ⟨e, rfl⟩ | ⟨_, _, _, hresult⟩
  · exact keepsInputs_raise s e
  · exact (commandResult_frame hresult).left

/-! ### STATUS -/

/-- A command word writes STATUS in one of two ways (10_state.md R39). -/
theorem issueCommand_status {w : Byte} {s t : State} (h : issueCommand w s = .next t) :
    (∃ e, t.status = statusOnError e) ∨ t.status = statusOnSuccess s.status := by
  rcases issueCommand_next h with ⟨e, rfl⟩ | ⟨_, _, _, hresult⟩
  · exact .inl ⟨e, rfl⟩
  · exact .inr (commandResult_status hresult)

/-- A command word that ends with ERR 0 has run a command to its result. -/
theorem commandResult_of_statusErr_eq_zero {w : Byte} {s t : State} (h : issueCommand w s = .next t)
    (hzero : statusErr t.status = 0) : ∃ i, decode w = .ok i ∧ commandResult i s t := by
  rcases issueCommand_next h with ⟨e, rfl⟩ | ⟨i, hd, _, hresult⟩
  · obtain ⟨_, _, hne⟩ := statusOnError_fields e
    exact absurd hzero hne
  · exact ⟨i, hd, hresult⟩

theorem ErrKind.code_le (e : ErrKind) : e.code ≤ 7 := by cases e <;> decide

/-- A success with another STATUS before it gives the same state but for STATUS: no meaning reads STATUS
(10_state.md R43). -/
theorem commandResult_withStatus {i : Instr} {s t t' : State} {st : BitVec 5} (h : commandResult i s t)
    (h' : commandResult i { s with status := st } t') : t' = { t with status := t'.status } := by
  cases i
  case parseA | parseB =>
    obtain ⟨_, hp, rfl⟩ := h
    obtain ⟨_, hp', rfl⟩ := h'
    obtain rfl := Except.ok.inj (hp.symm.trans hp')
    rfl
  case rdcA | rdcB =>
    obtain ⟨_, hp, _, rfl⟩ := h
    obtain ⟨_, hp', _, rfl⟩ := h'
    obtain rfl := Except.ok.inj (hp.symm.trans hp')
    rfl
  case mrg =>
    obtain ⟨_, rfl⟩ := h
    obtain ⟨_, rfl⟩ := h'
    rfl
  all_goals
    subst h
    subst h'
    rfl

theorem sameTests_withStatus (s : State) (st : BitVec 5) : sameTests s { s with status := st } := by
  simp [sameTests]

end Sys2Proof.Machine

namespace Sys2Proof.Proofs

open Sys2Proof.Machine Sys2Proof.Claims

/-- Settles O37: ERR is decided by what STATUS is no part of, and with the same ERR both runs raise or both succeed. -/
theorem noCommandReadsStatus : Obligations.NoCommandReadsStatus := by
  intro w s t st h
  obtain ⟨t', h'⟩ := exists_issueCommand_eq_next w { s with status := st }
  have herr := issueCommand_sameErr w (sameTests_withStatus s st) t t' h h'
  refine ⟨t', h', ?_, herr.symm⟩
  by_cases hzero : statusErr t.status = 0
  · obtain ⟨i, hd, hresult⟩ := commandResult_of_statusErr_eq_zero h hzero
    obtain ⟨i', hd', hresult'⟩ := commandResult_of_statusErr_eq_zero h' (herr ▸ hzero)
    obtain rfl := Except.ok.inj (hd.symm.trans hd')
    exact commandResult_withStatus hresult hresult'
  · obtain ⟨e, rfl⟩ := eq_raise_of_statusErr_ne_zero h hzero
    obtain ⟨e', rfl⟩ := eq_raise_of_statusErr_ne_zero h' (herr ▸ hzero)
    rfl

/-- Settles O41: a raise writes STATUS, and each result writes its command's own state. -/
theorem commandsWriteOnlyTheirOwnState : Obligations.CommandsWriteOnlyTheirOwnState := by
  intro i s t h
  simpa only [keepsInputs, keepsOutputs, and_assoc] using exec_frame h

/-- Settles O5: the decoder answers the rows of the opcode table, and the encoder writes their words. -/
theorem decodeAndEncodeAgree : Obligations.DecodeAndEncodeAgree :=
  ⟨fun i _ => decode_of_mem_opcodeTable (encode i, i) (encode_mem_opcodeTable i),
    fun w i h => encode_of_mem_opcodeTable (w, i) (mem_opcodeTable_of_decode h)⟩

/-- Settles O9: a command raises one of its errors or ends with its result. -/
theorem everyCommandAnswersANextState : Obligations.EveryCommandAnswersANextState := exists_exec_eq_next

end Sys2Proof.Proofs
end

section
/-!
PROOFS. The claims about the host's accesses (spec/10_state.md R46, R47; spec/00_scope.md R9). A register number names
at most one register (`regOfNumber_eq_some_iff`), so the claims' tables of numbers say what RD and WR by register say.
-/

namespace Sys2Proof.Machine

open Sys2Proof.Claims

/-! ### Register numbers -/

/-- The number of a register (10_state.md R46). -/
def regNumber : Reg → Nat
  | .cmd => 0x00
  | .status => 0x01
  | .salen => 0x02
  | .sblen => 0x03
  | .palen => 0x04
  | .pblen => 0x05
  | .polen => 0x06
  | .haCh => 0x08
  | .haRate => 0x09
  | .haBps => 0x0A
  | .haDsize => 0x0B
  | .hbCh => 0x0C
  | .hbRate => 0x0D
  | .hbBps => 0x0E
  | .hbDsize => 0x0F
  | .och => 0x10
  | .orate => 0x11
  | .obps => 0x12
  | .odsize => 0x13

theorem regOfNumber_regNumber (r : Reg) : regOfNumber (regNumber r) = some r := by cases r <;> rfl

/-- Each number names at most one register, and each register has one number. -/
theorem regOfNumber_eq_some_iff {n : Nat} {r : Reg} : regOfNumber n = some r ↔ n = regNumber r := by
  constructor
  case mp =>
    intro h
    unfold regOfNumber at h
    split at h <;> cases h <;> rfl
  case mpr =>
    rintro rfl
    exact regOfNumber_regNumber r

/-- The reserved numbers of 10_state.md R46. -/
theorem regOfNumber_of_reserved {n : Nat} (h : n = 7 ∨ 0x14 ≤ n) : regOfNumber n = none := by
  refine Option.eq_none_iff_forall_ne_some.mpr fun r hr => ?_
  have hn := regOfNumber_eq_some_iff.mp hr
  cases r <;> simp only [regNumber] at hn <;> omega

/-- The host-writable registers are those above the reserved number 0x07 (10_state.md R46). -/
theorem hostWritable_iff (r : Reg) : hostWritable r ↔ 7 < regNumber r := by
  cases r <;> simp [hostWritable, regNumber]

theorem writeReg_isSome_iff (s : State) (r : Reg) (v : Nat) : (s.writeReg r v).isSome ↔ hostWritable r := by
  cases r <;> simp [State.writeReg, hostWritable]

theorem hostWritable_of_writeReg {s t : State} {r : Reg} {v : Nat} (h : s.writeReg r v = some t) : hostWritable r :=
  (writeReg_isSome_iff s r v).mp (Option.isSome_of_eq_some h)

/-! ### WR -/

/-- A WR that the register takes. -/
theorem writeNumber_of_writeReg {s t : State} {n v : Nat} {r : Reg} (hn : regOfNumber n = some r)
    (hv : v < 2 ^ regWidth r) (h : s.writeReg r v = some t) : writeNumber n v s = .next t := by
  have hcmd : r ≠ .cmd := by
    rintro rfl
    cases h
  simp [writeNumber, hn, hv, hcmd, h]

/-- A WR of CMD issues the command (10_state.md R46; log entry 8). -/
theorem writeNumber_cmd {v : Nat} (hv : v < 256) (s : State) :
    writeNumber 0 v s = issueCommand (BitVec.ofNat 8 v) s :=
  (if_pos hv).trans (if_pos rfl)

/-- A WR to a number other than CMD writes a register or is refused. -/
theorem writeNumber_cases {n : Nat} (hn : n ≠ 0) (v : Nat) (s : State) :
    (∃ r t, n = regNumber r ∧ v < 2 ^ regWidth r ∧ s.writeReg r v = some t ∧ writeNumber n v s = .next t) ∨
    ∃ e, writeNumber n v s = .refused e := by
  cases h : writeNumber n v s with
  | next t =>
    rcases writeNumber_next h with ⟨hcmd, _⟩ | ⟨r, hr, hv, hw⟩
    · exact absurd (regOfNumber_eq_some_iff.mp hcmd) hn
    · exact .inl ⟨r, t, regOfNumber_eq_some_iff.mp hr, hv, hw, rfl⟩
  | fault f => cases f
  | refused e => exact .inr ⟨e, rfl⟩

theorem writeNumber_of_reserved {n : Nat} (h : regOfNumber n = none) (v : Nat) (s : State) :
    writeNumber n v s = .refused (.reservedRegister n) := by
  rw [writeNumber, h]

theorem writeNumber_of_tooWide {n v : Nat} {r : Reg} (hn : regOfNumber n = some r) (hv : 2 ^ regWidth r ≤ v)
    (s : State) : writeNumber n v s = .refused (.valueTooWide r) := by
  simp [writeNumber, hn, Nat.not_lt.mpr hv]

/-- A register that takes a value within its width holds that value. -/
theorem readReg_writeReg_same {s t : State} {r : Reg} {v : Nat} (h : s.writeReg r v = some t)
    (hv : v < 2 ^ regWidth r) : t.readReg r = some v := by
  cases r <;> cases h <;> exact congrArg some ((BitVec.toNat_ofNat ..).trans (Nat.mod_eq_of_lt hv))

/-- A WR changes one register only (10_state.md R36). -/
theorem readReg_writeReg_of_ne {s t : State} {r r' : Reg} {v : Nat} (h : s.writeReg r v = some t) (hne : r' ≠ r) :
    t.readReg r' = s.readReg r' := by
  cases r <;> cases h <;> cases r' <;> try rfl
  all_goals exact absurd rfl hne

theorem sameElsewhere_of_sameButNumbers {s t : State} (h : sameButNumbers s t) : sameElsewhere s t :=
  ⟨congrArg (·.sa) h, congrArg (·.sb) h, congrArg (·.pa) h, congrArg (·.pb) h, congrArg (·.po) h, congrArg (·.ha.raw) h,
    congrArg (·.hb.raw) h, congrArg (·.oh) h, congrArg (·.status) h, congrArg (·.pending) h, congrArg (·.pos) h,
    congrArg (·.received) h⟩

/-! ### RD -/

theorem readNumber_of_readReg {s : State} {n v : Nat} {r : Reg} (hn : regOfNumber n = some r)
    (h : s.readReg r = some v) : s.readNumber n = .ok v := by
  simp only [State.readNumber, hn, h]

theorem readNumber_of_reserved {n : Nat} (h : regOfNumber n = none) (s : State) :
    s.readNumber n = .error (.reservedRegister n) := by
  rw [State.readNumber, h]

/-- What an RD that is not refused has read. -/
theorem readNumber_eq_ok {s : State} {n v : Nat} (h : s.readNumber n = .ok v) :
    ∃ r, n = regNumber r ∧ s.readReg r = some v := by
  unfold State.readNumber at h
  split at h
  · cases h
  · next r hr =>
    split at h
    · cases h
    · next hv => cases h; exact ⟨r, regOfNumber_eq_some_iff.mp hr, hv⟩

theorem perform_rd_of_ok {s : State} {n v : Nat} (h : s.readNumber n = .ok v) :
    perform (.rd n) s = .next { s with received := s.received ++ [.value v] } := by
  rw [perform, h]

theorem perform_rd_of_error {s : State} {n : Nat} {e : Refusal} (h : s.readNumber n = .error e) :
    perform (.rd n) s = .refused e := by
  rw [perform, h]

/-- The claims' register map is what RD reads (10_state.md R46). -/
theorem mem_registerMap_iff {s : State} {n v : Nat} : (n, v) ∈ registerMap s ↔ s.readNumber n = .ok v := by
  constructor
  case mp =>
    have hall : ∀ p ∈ registerMap s, s.readNumber p.1 = .ok p.2 := by
      simp only [registerMap, List.forall_mem_cons, List.not_mem_nil, false_imp_iff, implies_true, and_true]
      and_intros <;> rfl
    exact hall (n, v)
  case mpr =>
    intro h
    obtain ⟨r, rfl, hr⟩ := readNumber_eq_ok h
    cases r <;> cases hr <;> simp [registerMap, regNumber]

/-- The claims' map of writable registers is what WR writes (10_state.md R46). -/
theorem mem_writableMap_iff {s t : State} {n k v : Nat} :
    (n, k, t) ∈ writableMap s v ↔ ∃ r, regOfNumber n = some r ∧ regWidth r = k ∧ s.writeReg r v = some t := by
  constructor
  case mp =>
    have hall : ∀ p ∈ writableMap s v,
        ∃ r, regOfNumber p.1 = some r ∧ regWidth r = p.2.1 ∧ s.writeReg r v = some p.2.2 := by
      simp only [writableMap, List.forall_mem_cons, List.not_mem_nil, false_imp_iff, implies_true, and_true]
      and_intros <;> exact ⟨_, rfl, rfl, rfl⟩
    exact hall (n, k, t)
  case mpr =>
    rintro ⟨r, hr, rfl, hw⟩
    obtain rfl := regOfNumber_eq_some_iff.mp hr
    cases r <;> cases hw <;> simp [writableMap, regNumber, regWidth]

/-! ### LOAD and READ -/

/-- Every capacity fits a 32-bit length register (10_state.md R31). -/
theorem bufCapacity_lt (x : BufId) : bufCapacity x < 2 ^ 32 := by
  have hcap := config_cap_le
  cases x <;> simp only [bufCapacity, headerLength] <;> omega

/-- A buffer replaced by a byte sequence holds exactly that sequence (10_state.md R33). -/
theorem holds_ofBytes_of_le {bs : List Byte} {x : BufId} (h : bs.length ≤ bufCapacity x) :
    holds (Buffer.ofBytes bs) bs :=
  ⟨Buffer.ofBytes_len bs (h.trans_lt (bufCapacity_lt x)), fun a _ => Memory.read_ofBytes bs a, endsAt_ofBytes bs⟩

theorem loadAction_of_loadBuf {s t : State} {x : BufId} {bs : List Byte} (h : s.loadBuf x bs = some t)
    (hl : bs.length ≤ bufCapacity x) : loadAction x bs s = .next t := by
  simp [loadAction, h, hl]

theorem loadAction_of_tooLong {s t : State} {x : BufId} {bs : List Byte} (h : s.loadBuf x bs = some t)
    (hl : bufCapacity x < bs.length) : loadAction x bs s = .refused (.loadTooLong x) := by
  simp [loadAction, h, Nat.not_le.mpr hl]

theorem readBuf_loadBuf_same {s t : State} {x : BufId} {bs : List Byte} (h : s.loadBuf x bs = some t)
    (hbs : bs.length < 2 ^ 32) : t.readBuf x = bs := by
  cases x <;> cases h <;> exact Buffer.bytes_ofBytes bs hbs

theorem readBuf_loadBuf_of_ne {s t : State} {x y : BufId} {bs : List Byte} (h : s.loadBuf x bs = some t) (hne : y ≠ x) :
    t.readBuf y = s.readBuf y := by
  cases x <;> cases h <;> cases y <;> try rfl
  all_goals exact absurd rfl hne

/-- A LOAD reaches neither STATUS nor a register that the host may write. -/
theorem readReg_loadBuf {s t : State} {x : BufId} {bs : List Byte} (h : s.loadBuf x bs = some t) :
    t.status = s.status ∧ ∀ r, hostWritable r → t.readReg r = s.readReg r := by
  cases x <;> cases h <;> refine ⟨rfl, fun r hr => ?_⟩ <;> cases r <;> try rfl
  all_goals cases hr

theorem mem_bufferMap {s : State} {x : BufId} {bs : List Byte} (h : (x, bs) ∈ bufferMap s) : s.readBuf x = bs := by
  have hall : ∀ p ∈ bufferMap s, s.readBuf p.1 = p.2 := by
    simp only [bufferMap, List.forall_mem_cons, List.not_mem_nil, false_imp_iff, implies_true, and_true]
    and_intros <;> rfl
  exact hall (x, bs) h

end Sys2Proof.Machine

namespace Sys2Proof.Proofs

open Sys2Proof.Machine Sys2Proof.Claims

/-- Settles O45: a LOAD that fits replaces its own buffer, and of the four others there is none to replace. -/
theorem loadReplacesTheWholeBuffer : Obligations.LoadReplacesTheWholeBuffer := by
  refine fun s bs => ⟨fun x hx => ?input, fun x hx => ?other⟩
  case input =>
    obtain ⟨t, ht⟩ : ∃ t, s.loadBuf x bs = some t := by rcases hx with rfl | rfl | rfl | rfl <;> exact ⟨_, rfl⟩
    exact ⟨fun hl => ⟨t, loadAction_of_loadBuf ht hl, readBuf_loadBuf_same ht (hl.trans_lt (bufCapacity_lt x)),
      fun y hy => readBuf_loadBuf_of_ne ht hy, readReg_loadBuf ht⟩, fun hl => loadAction_of_tooLong ht hl⟩
  case other => rcases hx with rfl | rfl | rfl | rfl <;> rfl

/-- Settles O46: the register takes the value, and a WR reaches one register number. -/
theorem writeThenReadGivesTheValue : Obligations.WriteThenReadGivesTheValue := by
  intro s n v r hn hr hv
  obtain ⟨t, ht⟩ := Option.isSome_iff_exists.mp ((writeReg_isSome_iff s r v).mpr hr)
  exact ⟨t, writeNumber_of_writeReg hn hv ht, readReg_writeReg_same ht hv, fun r' hne => readReg_writeReg_of_ne ht hne,
    sameElsewhere_of_sameButNumbers (writeReg_some ht)⟩

/-- Settles O54: the claims' buffer map is what READ answers, and a loaded buffer holds exactly its bytes. -/
theorem eachBufferIsReadAndLoadedInItsField : Obligations.EachBufferIsReadAndLoadedInItsField := by
  refine ⟨fun s x bs h => ?read, fun s bs hl => ?sources, fun s bs hl => ?payloads⟩
  case read => rw [perform, mem_bufferMap h]
  case sources =>
    exact ⟨⟨_, holds_ofBytes_of_le (x := .sa) hl, loadAction_of_loadBuf (x := .sa) rfl hl⟩,
      ⟨_, holds_ofBytes_of_le (x := .sb) hl, loadAction_of_loadBuf (x := .sb) rfl hl⟩⟩
  case payloads =>
    exact ⟨⟨_, holds_ofBytes_of_le (x := .pa) hl, loadAction_of_loadBuf (x := .pa) rfl hl⟩,
      ⟨_, holds_ofBytes_of_le (x := .pb) hl, loadAction_of_loadBuf (x := .pb) rfl hl⟩⟩

/-- Settles O3: RESET is the reset state with the host's three fields. -/
theorem resetActionRestoresTheResetState : Obligations.ResetActionRestoresTheResetState := fun _ => rfl

/-- Settles O47: a readable register is not refused, and READ never is. -/
theorem readsChangeNothingOfTheBlock : Obligations.ReadsChangeNothingOfTheBlock :=
  ⟨fun _ _ _ _ hn hr => perform_rd_of_ok (readNumber_of_readReg hn hr), fun _ _ => rfl⟩

/-- Settles O48: reserved numbers name no register, and the read-only registers are below the writable ones. -/
theorem hostAccessesOutsideTheMapAreRefused : Obligations.HostAccessesOutsideTheMapAreRefused := by
  refine fun s => ⟨fun n v hn => ?reserved, rfl, fun n v hlow hhigh => ?readOnly, fun n v r hn hv => ?tooWide⟩
  case reserved =>
    have hnone := regOfNumber_of_reserved hn
    exact ⟨perform_rd_of_error (readNumber_of_reserved hnone s), writeNumber_of_reserved hnone v s⟩
  case readOnly =>
    have hne : n ≠ 0 := by omega
    rcases writeNumber_cases hne v s with ⟨r, t, hn, _, hw, _⟩ | hrefused
    · have hwritable := (hostWritable_iff r).mp (hostWritable_of_writeReg hw)
      omega
    · exact hrefused
  case tooWide => exact writeNumber_of_tooWide hn hv s

/-- Settles O49: register 0 is CMD, and RD(reg) is evaluated before the write. -/
theorem writeToCmdAndWriteOfAReadValue : Obligations.WriteToCmdAndWriteOfAReadValue := by
  refine ⟨fun s v hv => ?command, fun s n m v r hm hr => ?readValue⟩
  case command => exact writeNumber_cmd hv s
  case readValue =>
    have hvalue : s.hostValue (.rd m) = s.hostValue (.lit v) := readNumber_of_readReg hm hr
    rw [perform, hvalue, perform]

/-- Settles O52: the register map is what RD reads, and an RD of a number outside it has nothing to answer. -/
theorem eachRegisterNumberReadsItsField : Obligations.EachRegisterNumberReadsItsField := by
  refine fun s n => ⟨fun v h => perform_rd_of_ok (mem_registerMap_iff.mp h), fun hout => ?_⟩
  cases h : s.readNumber n with
  | ok v => exact absurd (mem_registerMap_iff.mpr h) (hout v)
  | error e => exact ⟨e, perform_rd_of_error h⟩

/-- Settles O53: the map of writable registers is what WR writes, and any other WR but to CMD is refused. -/
theorem eachRegisterNumberWritesItsField : Obligations.EachRegisterNumberWritesItsField := by
  refine fun s n v => ⟨fun k t h hv => ?written, fun hn hout => ?refused⟩
  case written =>
    obtain ⟨r, hr, rfl, hw⟩ := mem_writableMap_iff.mp h
    exact writeNumber_of_writeReg hr hv hw
  case refused =>
    rcases writeNumber_cases hn v s with ⟨r, t, hr, _, hw, _⟩ | hrefused
    · exact absurd (mem_writableMap_iff.mpr ⟨r, regOfNumber_eq_some_iff.mpr hr, rfl, hw⟩) (hout _ t)
    · exact hrefused

end Sys2Proof.Proofs
end

section
/-!
PROOFS. The claims about every step (spec/10_state.md R39 to R44; spec/20_memory.md R71, R72; spec/30_encoding.md R100),
the invariant among them: each operation keeps it, so each command, each host action and each step does.
-/

namespace Sys2Proof.Machine

open Sys2Proof.Claims

/-! ### How a line reaches its meaning -/

theorem step_act {s : State} {a : HostAction} {rest : List HostLine} (h : s.pending = .act a :: rest) :
    step s = perform a (s.taken rest) := step_cons h

/-- STOP-IF-ERR keeps the rest of the script if ERR is 0 and abandons it otherwise (30_encoding.md R100). -/
theorem step_stopIfErr {s : State} {rest : List HostLine} (h : s.pending = .stopIfErr :: rest) :
    step s = .next (s.taken (if statusErr s.status = 0 then rest else [])) := by
  rw [step_cons h, performLine, State.taken]
  split <;> rfl

@[simp] theorem State.taken_pending (s : State) (rest : List HostLine) : (s.taken rest).pending = rest := rfl
@[simp] theorem State.taken_pos (s : State) (rest : List HostLine) : (s.taken rest).pos = s.pos + 1 := rfl
@[simp] theorem State.taken_status (s : State) (rest : List HostLine) : (s.taken rest).status = s.status := rfl

/-- What a step that answers a next state did, STOP-IF-ERR as the script it leaves. -/
theorem step_cases {s t : State} (h : step s = .next t) : ∃ l rest, s.pending = l :: rest ∧
    ((∃ a, l = .act a ∧ perform a (s.taken rest) = .next t) ∨
     (l = .stopIfErr ∧ t = s.taken (if statusErr s.status = 0 then rest else []))) := by
  obtain ⟨l, rest, hpending, haction | ⟨rfl, _⟩⟩ := step_next h
  · exact ⟨l, rest, hpending, .inl haction⟩
  · exact ⟨_, rest, hpending, .inr ⟨rfl, Host.Outcome.next.inj (h.symm.trans (step_stopIfErr hpending))⟩⟩

/-! ### What a host action leaves alone -/

/-- What a host action that is neither a command nor RESET leaves: STATUS, the script and the position. -/
def keepsControl (s t : State) : Prop := t.status = s.status ∧ t.pending = s.pending ∧ t.pos = s.pos

theorem loadAction_keepsControl {x : BufId} {bs : List Byte} {s t : State} (h : loadAction x bs s = .next t) :
    keepsControl s t := by
  obtain ⟨_, hfield⟩ := loadAction_next h
  rcases hfield with ⟨_, rfl⟩ | ⟨_, rfl⟩ | ⟨_, rfl⟩ | ⟨_, rfl⟩ <;> exact ⟨rfl, rfl, rfl⟩

/-- A host action is a command, or RESET, or leaves STATUS and the script (10_state.md R39). -/
theorem perform_cases {a : HostAction} {s t : State} (h : perform a s = .next t) :
    (¬notACommand a ∧ ∃ w, issueCommand w s = .next t) ∨ (a = .reset ∧ t = s.resetBlock) ∨ keepsControl s t := by
  rcases perform_next h with ⟨x, bs, _, hload⟩ | ⟨n, v, k, rfl, _, hwr⟩ | ⟨d, rfl⟩ | ⟨w, rfl, hcmd⟩ | hreset
  case inl => exact .inr (.inr (loadAction_keepsControl hload))
  case inr.inl =>
    rcases writeNumber_next hwr with ⟨hr, hcmd⟩ | ⟨r, _, _, hreg⟩
    · exact .inl ⟨not_not_intro (regOfNumber_eq_some_iff.mp hr), _, hcmd⟩
    · have hsame := writeReg_some hreg
      exact .inr (.inr ⟨congrArg (·.status) hsame, congrArg (·.pending) hsame, congrArg (·.pos) hsame⟩)
  case inr.inr.inl => exact .inr (.inr ⟨rfl, rfl, rfl⟩)
  case inr.inr.inr.inl => exact .inl ⟨not_false, w, hcmd⟩
  case inr.inr.inr.inr => exact .inr (.inl hreset)

/-- No host action touches the script or the position (10_state.md R44). -/
theorem perform_script {a : HostAction} {s t : State} (h : perform a s = .next t) :
    t.pending = s.pending ∧ t.pos = s.pos := by
  rcases perform_cases h with ⟨_, w, hcmd⟩ | ⟨_, rfl⟩ | ⟨_, hscript⟩
  · obtain ⟨_, _, _, _, _, _, hpending, hpos, _⟩ := issueCommand_keepsInputs hcmd
    exact ⟨hpending, hpos⟩
  · exact ⟨rfl, rfl⟩
  · exact hscript

/-! ### The invariant -/

theorem Buffer.wf_empty (n : Nat) : Buffer.empty.wf n = true := by
  simp [Buffer.empty, Buffer.wf, Memory.wf_nil]

theorem statusLegal_onError (e : ErrKind) : statusLegal (statusOnError e) = true := by cases e <;> decide

theorem statusLegal_onSuccess (st : BitVec 5) : statusLegal (statusOnSuccess st) = true := by
  simp [statusLegal, (statusOnSuccess_fields st).left]

theorem State.reset_inv : State.reset.Inv :=
  ⟨Buffer.wf_empty _, Buffer.wf_empty _, Buffer.wf_empty _, Buffer.wf_empty _, Buffer.wf_empty _, Memory.wf_nil _,
    Memory.wf_nil _, Memory.wf_nil _, rfl⟩

/-- What a successful parse puts into a RAW buffer is 44 bytes (40_headercodec.md R120). -/
theorem Header.regs_raw_wf {x : Buffer} {h : Header} (hp : parseHeader x.bytes = .ok h) :
    h.regs.raw.wf headerLength = true := by
  obtain ⟨_, _, rfl⟩ := parseHeader_bytes_eq_ok hp
  exact Memory.wf_ofBytes _ _ (Memory.bytes_length ..).le

theorem Buffer.wf_ofBytes_capacity (x : BufId) {bs : List Byte} (h : bs.length ≤ bufCapacity x) :
    (Buffer.ofBytes bs).wf (bufCapacity x) = true :=
  Buffer.wf_ofBytes _ _ h (h.trans_lt (bufCapacity_lt x))

namespace State.Inv

variable {s : State}

theorem raise (hs : s.Inv) (e : ErrKind) : (s.raise e).Inv := { hs with status := statusLegal_onError e }

theorem succeed (hs : s.Inv) : s.succeed.Inv := { hs with status := statusLegal_onSuccess s.status }

theorem setOut (hs : s.Inv) {bs : List Byte} (h : bs.length ≤ 2 * Config.CAP) : (s.setOut bs).Inv :=
  { hs with po := Buffer.wf_ofBytes_capacity .po h }

theorem setOutHeader (hs : s.Inv) {bs : List Byte} (h : bs.length ≤ headerLength) : (s.setOutHeader bs).Inv :=
  { hs with oh := Memory.wf_ofBytes bs _ h }

theorem setHdr (hs : s.Inv) (x : Side) {h : HdrRegs} (hraw : h.raw.wf headerLength = true) : (s.setHdr x h).Inv := by
  cases x
  case a => exact { hs with haRaw := hraw }
  case b => exact { hs with hbRaw := hraw }

theorem setPayload (hs : s.Inv) (x : Side) {bs : List Byte} (h : bs.length ≤ Config.CAP) :
    (s.setPayload x (Buffer.ofBytes bs)).Inv := by
  cases x
  case a => exact { hs with pa := Buffer.wf_ofBytes_capacity .pa h }
  case b => exact { hs with pb := Buffer.wf_ofBytes_capacity .pb h }

/-- The payload of RDC is what follows the 44 header bytes in a source of at most 44 + CAP bytes (10_state.md R31). -/
theorem payloadOf_length_le (hs : s.Inv) (x : Side) (h : Header) (hlen : 44 ≤ (s.source x).len.toNat) :
    (payloadOf x s h).length ≤ Config.CAP := by
  have hsource : (s.source x).len.toNat ≤ 44 + Config.CAP := by
    cases x
    case a => exact Buffer.len_le_of_wf hs.sa
    case b => exact Buffer.len_le_of_wf hs.sb
  rw [payloadOf_length x s h hlen]
  omega

theorem readResult (hs : s.Inv) (x : Side) {h : Header} (hp : parseHeader (s.source x).bytes = .ok h)
    (hlen : 44 ≤ (s.source x).len.toNat) :
    ((s.setHdr x h.regs).setPayload x (Buffer.ofBytes (payloadOf x s h))).succeed.Inv :=
  ((hs.setHdr x (Header.regs_raw_wf hp)).setPayload x (hs.payloadOf_length_le x h hlen)).succeed

/-- A command that succeeds keeps the invariant: no output is longer than twice its payload (10_state.md R32). -/
theorem of_commandResult (hs : s.Inv) {i : Instr} {t : State} (h : commandResult i s t) : t.Inv := by
  have hpa := Buffer.len_le_of_wf hs.pa
  simp only [bufCapacity] at hpa
  cases i
  case parseA => obtain ⟨_, hp, rfl⟩ := h; exact (hs.setHdr .a (Header.regs_raw_wf hp)).succeed
  case parseB => obtain ⟨_, hp, rfl⟩ := h; exact (hs.setHdr .b (Header.regs_raw_wf hp)).succeed
  case rdcA => obtain ⟨_, hp, hlen, rfl⟩ := h; exact hs.readResult .a hp hlen
  case rdcB => obtain ⟨_, hp, hlen, rfl⟩ := h; exact hs.readResult .b hp hlen
  case build | wrc => subst h; exact (hs.setOutHeader (headerBytes_length ..).le).succeed
  case mrg =>
    obtain ⟨_, rfl⟩ := h
    exact (hs.setOut (by rw [merge_length, Buffer.bytes_length]; omega)).succeed
  case mse => subst h; exact (hs.setOut (by rw [midSideEncode_length, Buffer.bytes_length]; omega)).succeed
  case msd => subst h; exact (hs.setOut (by rw [midSideDecode_length, Buffer.bytes_length]; omega)).succeed
  all_goals
    subst h
    exact (hs.setOut (by rw [downmix_length, Buffer.bytes_length]; omega)).succeed

theorem of_issueCommand (hs : s.Inv) {w : Byte} {t : State} (h : issueCommand w s = .next t) : t.Inv := by
  rcases issueCommand_next h with ⟨e, rfl⟩ | ⟨_, _, _, hresult⟩
  · exact hs.raise e
  · exact hs.of_commandResult hresult

theorem of_loadAction (hs : s.Inv) {x : BufId} {bs : List Byte} {t : State} (h : loadAction x bs s = .next t) :
    t.Inv := by
  obtain ⟨hlen, hfield⟩ := loadAction_next h
  have hbuf := Buffer.wf_ofBytes_capacity x hlen
  rcases hfield with ⟨rfl, rfl⟩ | ⟨rfl, rfl⟩ | ⟨rfl, rfl⟩ | ⟨rfl, rfl⟩
  · exact { hs with sa := hbuf }
  · exact { hs with sb := hbuf }
  · exact { hs with pa := hbuf }
  · exact { hs with pb := hbuf }

/-- A register number is no part of the invariant. -/
theorem of_sameButNumbers (hs : s.Inv) {t : State} (h : sameButNumbers s t) : t.Inv := by
  rw [h]
  exact { hs with }

theorem of_perform (hs : s.Inv) {a : HostAction} {t : State} (h : perform a s = .next t) : t.Inv := by
  rcases perform_next h with ⟨x, bs, rfl, hload⟩ | ⟨n, v, k, rfl, _, hwr⟩ | ⟨d, rfl⟩ | ⟨w, rfl, hcmd⟩ | ⟨rfl, rfl⟩
  case inl => exact hs.of_loadAction hload
  case inr.inl =>
    rcases writeNumber_next hwr with ⟨_, hcmd⟩ | ⟨r, _, _, hreg⟩
    · exact hs.of_issueCommand hcmd
    · exact hs.of_sameButNumbers (writeReg_some hreg)
  case inr.inr.inl => exact { hs with }
  case inr.inr.inr.inl => exact hs.of_issueCommand hcmd
  case inr.inr.inr.inr => exact { State.reset_inv with }

theorem taken (hs : s.Inv) (rest : List HostLine) : (s.taken rest).Inv := { hs with }

end State.Inv

end Sys2Proof.Machine

namespace Sys2Proof.Proofs

open Sys2Proof.Machine Sys2Proof.Claims

/-- Settles O43: a step takes a line and carries out a host action, which keeps the invariant, or stops the script. -/
theorem everyStepKeepsTheInvariant : Obligations.EveryStepKeepsTheInvariant := by
  intro s t hs h
  obtain ⟨l, rest, _, ⟨a, _, haction⟩ | ⟨_, rfl⟩⟩ := step_cases h
  · exact (hs.taken rest).of_perform haction
  · exact hs.taken _

/-- Settles O36: the two ways a command writes STATUS, and that other host actions do not write it. -/
theorem statusIsWrittenAsR39Says : Obligations.StatusIsWrittenAsR39Says := by
  refine ⟨fun w s t h => ?command, fun a s t ha h => ?other⟩
  case command =>
    rcases issueCommand_status h with ⟨e, hst⟩ | hst <;> rw [hst]
    · obtain ⟨hcode, hsticky, hne⟩ := statusOnError_fields e
      have hle := e.code_le
      exact ⟨by rw [hcode, BitVec.toNat_ofNat]; omega, fun hzero => absurd hzero hne, fun _ => hsticky⟩
    · obtain ⟨hzero, hsticky⟩ := statusOnSuccess_fields s.status
      exact ⟨by rw [hzero]; decide, fun _ => hsticky, fun hne => absurd hzero hne⟩
  case other =>
    rcases perform_cases h with ⟨hcmd, _⟩ | ⟨rfl, _⟩ | ⟨hstatus, _⟩
    · exact absurd ha hcmd
    · exact ha.elim
    · exact hstatus

/-- Settles O40: a command sets STICKY or leaves it, and no other line but RESET writes STATUS. -/
theorem onlyResetClearsSticky : Obligations.OnlyResetClearsSticky := by
  intro s t h hsticky hreset
  obtain ⟨l, rest, hpending, ⟨a, rfl, haction⟩ | ⟨_, rfl⟩⟩ := step_cases h
  · rcases perform_cases haction with ⟨_, w, hcmd⟩ | ⟨rfl, _⟩ | ⟨hstatus, _⟩
    · rcases issueCommand_status hcmd with ⟨e, hst⟩ | hst
      · obtain ⟨_, hset, _⟩ := statusOnError_fields e
        rw [hst, hset]
      · obtain ⟨_, hkept⟩ := statusOnSuccess_fields s.status
        rw [hst, State.taken_status, hkept, hsticky]
    · exact absurd (by rw [hpending]; rfl) hreset
    · rw [hstatus, State.taken_status, hsticky]
  · exact hsticky

/-- Settles O42: empty buffers and memories are canonical. -/
theorem resetMeetsTheInvariant : Obligations.ResetMeetsTheInvariant := State.reset_inv

/-- Settles O7: the line's action is the command port, which runs the decoded command. -/
theorem stepRunsTheDecodedCommand : Obligations.StepRunsTheDecodedCommand :=
  fun _ _ _ _ hpending hdecode _ => (step_act hpending).trans (issueCommand_of_decode hdecode _)

/-- Settles O8: the line's action is the command port, which raises IllegalCommand. -/
theorem stepOnAnIllegalWordRaisesCodeSeven : Obligations.StepOnAnIllegalWordRaisesCodeSeven :=
  fun _ _ _ hpending hillegal => (step_act hpending).trans (issueCommand_of_illegal hillegal)

/-- Settles O50: host actions leave the script and the position, and STOP-IF-ERR empties the script if ERR is not 0. -/
theorem everyStepAdvancesThePosition : Obligations.EveryStepAdvancesThePosition := by
  refine ⟨fun s t h => ?step, fun s h => step_nil h⟩
  obtain ⟨l, rest, hpending, ⟨a, rfl, haction⟩ | ⟨rfl, rfl⟩⟩ := step_cases h
  · obtain ⟨hscript, hpos⟩ := perform_script haction
    exact ⟨hpos, _, rest, hpending, by simpa using hscript⟩
  · refine ⟨rfl, _, rest, hpending, ?_⟩
    by_cases herr : statusErr s.status = 0 <;> simp [herr]

/-- Settles O51: the step's line by its two forms, and the command port by the decoder. -/
theorem stepCarriesOutTheNextLine : Obligations.StepCarriesOutTheNextLine :=
  ⟨fun _ _ _ h => step_act h, fun _ _ h => step_stopIfErr h, fun _ _ => rfl, fun _ _ s h => issueCommand_of_decode h s⟩

end Sys2Proof.Proofs
end

section
/-!
PROOFS. The claims that follow bytes through a transformer or a container: output frames depend on their input frame
only (spec/20_memory.md R75), and a container that WRC has written reads back (spec/40_headercodec.md R125, R127, R128).
Both rest on which bytes a field is read from (`memRead_congr`).
-/

namespace Sys2Proof.Machine

open Sys2Proof.Claims

/-! ### Byte sequences that agree where they are read -/

theorem getD_congr {X Y : List Byte} {a b : Nat} (h : X[a]? = Y[b]?) : X.getD a 0 = Y.getD b 0 := by
  rw [List.getD_eq_getElem?_getD, List.getD_eq_getElem?_getD, h]

/-- A field is decided by the bytes it is read from (00_scope.md R15). -/
theorem memRead_congr {X Y : List Byte} {a n : Nat} (h : ∀ j < n, X[a + j]? = Y[a + j]?) :
    memRead X a n = memRead Y a n := by
  refine congrArg List.sum (List.map_congr_left fun j hj => ?_)
  rw [getD_congr (h j (List.mem_range.mp hj))]

section
variable {P P' : List Byte} {k : Nat} (h : ∀ j, j < 4 → P[4 * k + j]? = P'[4 * k + j]?)
include h

theorem stereoFrame_congr : stereoFrame P k = stereoFrame P' k := by
  have hleft : memRead P (4 * k) 2 = memRead P' (4 * k) 2 := memRead_congr fun j hj => h j (by omega)
  have hright : memRead P (4 * k + 2) 2 = memRead P' (4 * k + 2) 2 := memRead_congr fun j hj => by
    rw [Nat.add_assoc]
    exact h (2 + j) (by omega)
  rw [stereoFrame, stereoFrame, hleft, hright]

theorem codedSample_congr : codedSample P k = codedSample P' k := memRead_congr h

end

/-! ### A header with a payload behind it -/

theorem slice_append_left (H X : List Byte) {a b : Nat} (hb : b ≤ H.length) :
    slice (H ++ X) a b = slice H a b := by
  by_cases h : a ≤ b
  · rw [slice, slice, List.drop_append_of_le_length (by omega), List.take_append_of_le_length (by simp; omega)]
  · rw [slice, slice, Nat.sub_eq_zero_of_le (by omega), List.take_zero, List.take_zero]

theorem memRead_append_left (H X : List Byte) {a n : Nat} (h : a + n ≤ H.length) :
    memRead (H ++ X) a n = memRead H a n :=
  memRead_congr fun j hj => List.getElem?_append_left (by omega)

/-- The parser reads the first 44 bytes only (40_headercodec.md R120). -/
theorem parseHeader_append {H : List Byte} (hH : H.length = 44) (X : List Byte) :
    parseHeader (H ++ X) = parseHeader H := by
  have hlong : ¬(H ++ X).length < headerLength := by simp [headerLength, hH]
  have hlong' : ¬H.length < headerLength := by simp [headerLength, hH]
  rw [parseHeader, parseHeader, if_neg hlong, if_neg hlong', literalsMatch, literalsMatch]
  simp (disch := omega) only [slice_append_left, memRead_append_left]

/-- The output container after 44 bytes were written to OH (10_state.md R34). -/
theorem outputContainer_setOutHeader (s : State) {H : List Byte} (hH : H.length = 44) :
    (s.setOutHeader H).succeed.outputContainer = H ++ s.po.bytes := by
  rw [State.outputContainer, State.succeed_oh, State.setOutHeader_oh, State.succeed_po, State.setOutHeader_po,
    headerLength, ← hH, Memory.bytes_ofBytes]

/-- A source buffer has room for the header and a payload within R6's bound on CAP (10_state.md R31). -/
theorem bytes_ofBytes_outputContainer (s : State) {H : List Byte} (hH : H.length = 44)
    (hpo : s.po.len.toNat ≤ 2147483647) :
    (Buffer.ofBytes (s.setOutHeader H).succeed.outputContainer).bytes = H ++ s.po.bytes := by
  rw [outputContainer_setOutHeader s hH]
  exact Buffer.bytes_ofBytes _ (by rw [List.length_append, hH, Buffer.bytes_length]; omega)

/-- RDC.A of a source that is 44 header bytes and a payload as long as the header declares (20_memory.md R69). -/
theorem payloadOf_append {s : State} {h : Header} {H X : List Byte} (hH : H.length = 44)
    (hsource : s.sa.bytes = H ++ X) (hsize : h.dsize = X.length) : payloadOf .a s h = X := by
  have hlen : s.sa.len.toNat = 44 + X.length := by
    rw [← Buffer.bytes_length, hsource, List.length_append, hH]
  rw [payloadOf, State.source_a, hsource, hlen, hsize, Nat.add_sub_cancel_left, Nat.min_self]
  simpa using slice_piece H X [] 44 X.length hH rfl

/-- RDC.A reads such a source as its header and its whole payload (40_headercodec.md R125). -/
theorem readSide_append {s : State} {h : Header} {H X : List Byte} (hH : H.length = 44) (hsource : s.sa.bytes = H ++ X)
    (hparse : parseHeader H = .ok h) (hsize : h.dsize = X.length) :
    readSide .a s = .next ((s.setHdr .a h.regs).setPayload .a (Buffer.ofBytes X)).succeed := by
  rw [readSide_of_ok (h := h) ?parsed, payloadOf_append hH hsource hsize]
  case parsed => rw [State.source_a, hsource, parseHeader_append hH, hparse]

end Sys2Proof.Machine

namespace Sys2Proof.Proofs

open Sys2Proof.Machine Sys2Proof.Claims

/-- Settles O18: the header that WRC builds parses to its own arguments with the payload behind it, and the payload is
as long as it declares. -/
theorem writtenContainerReadsBack : Obligations.WrittenContainerReadsBack := by
  intro s hfits hbound
  rw [fits_iff_headerFits] at hfits
  have hH := headerBytes_length s.och.toNat s.orate.toNat s.obps.toNat s.po.len.toNat
  have hpo := Buffer.bytes_length s.po
  refine ⟨_, _, writeHeader_of_fits hfits, readSide_append hH (bytes_ofBytes_outputContainer s hH hbound)
    (parseHeader_headerBytes hfits) hpo.symm, ?channels, ?sampleRate, ?bitsPerSample, ?dataSize, ?payload, ?status⟩
  case channels | sampleRate | bitsPerSample | dataSize => simp [Header.regs]
  case payload => exact Buffer.bytes_ofBytes s.po.bytes (hpo ▸ s.po.len.isLt)
  case status => exact (statusOnSuccess_fields _).left

/-- Settles O33: each output cell is a function of the input frame's own cells. -/
theorem outputFramesDependOnTheirInputFrameOnly : Obligations.OutputFramesDependOnTheirInputFrameOnly := by
  refine ⟨fun X X' Y Y' k hk hk' h j hj => ?merge,
    fun P P' k hk hk' h => ⟨fun sel j hj => ?downmix, fun j hj => ?encode, fun j hj => ?decode⟩⟩
  case merge =>
    obtain ⟨hX0, hY0⟩ : X[2 * k]? = X'[2 * k]? ∧ Y[2 * k]? = Y'[2 * k]? := h 0 (by decide)
    obtain ⟨hX1, hY1⟩ := h 1 (by decide)
    refine getElem?_eq_of_getD_eq (by rw [merge_length]; omega) (by rw [merge_length]; omega) ?_
    rw [merge_getD X Y k j hk hj, merge_getD X' Y' k j hk' hj, getD_congr hX0, getD_congr hX1, getD_congr hY0,
      getD_congr hY1]
  case downmix =>
    refine getElem?_eq_of_getD_eq (by rw [downmix_length]; omega) (by rw [downmix_length]; omega) ?_
    rw [downmix_getD sel P k j hk hj, downmix_getD sel P' k j hk' hj, stereoFrame_congr h]
  case encode =>
    refine getElem?_eq_of_getD_eq (by rw [midSideEncode_length]; omega) (by rw [midSideEncode_length]; omega) ?_
    rw [midSideEncode_getD P k j hk hj, midSideEncode_getD P' k j hk' hj, stereoFrame_congr h]
  case decode =>
    refine getElem?_eq_of_getD_eq (by rw [midSideDecode_length]; omega) (by rw [midSideDecode_length]; omega) ?_
    rw [midSideDecode_getD P k j hk hj, midSideDecode_getD P' k j hk' hj, codedSample_congr h]

end Sys2Proof.Proofs
end
